-- ==== Sys2Proof/Word.lean ====
section
/-! DEFINITION. The bit patterns the spec's registers hold (spec/00_scope.md R6, R7, R8). -/

namespace Sys2Proof

/-- A byte of BUF: 8 bits (00_scope.md R7; 10_state.md R12). -/
abbrev Byte := BitVec 8

/-- A host-visible register: 32 bits (00_scope.md R6). A buffer address, length or position is one of
these; rules that add or compare them read it as an unsigned number with `toNat` (R8). -/
abbrev Word := BitVec 32

/-- The DATA register: 64 bits, the widest primitive (00_scope.md R6; 10_state.md R21). -/
abbrev DWord := BitVec 64

end Sys2Proof
end

