-- ==== Sys2Proof/Syntax.lean ====
section
/-! DEFINITION. The commands: one constructor for each row of spec/opcode_table.json (30_encoding.md R47). -/

namespace Sys2Proof

/-- A command. The host supplies every operand but a span length through registers (30_encoding.md R48). -/
inductive Instr where
  /-- NOP, OP 0x00 (42_control.md R83) -/
  | nop
  /-- PUT8, OP 0x01 (40_byte_order.md R60) -/
  | put8
  /-- PUT16, OP 0x02 (40_byte_order.md R61) -/
  | put16
  /-- PUT32, OP 0x03 (40_byte_order.md R62) -/
  | put32
  /-- PUT64, OP 0x04 (40_byte_order.md R63) -/
  | put64
  /-- GET8, OP 0x05 (40_byte_order.md R64) -/
  | get8
  /-- GET16, OP 0x06 (40_byte_order.md R65) -/
  | get16
  /-- GET32, OP 0x07 (40_byte_order.md R66) -/
  | get32
  /-- GET64, OP 0x08 (40_byte_order.md R67) -/
  | get64
  /-- PUTSPAN n, OP 0x09 (40_byte_order.md R68) -/
  | putspan (n : Nat)
  /-- GETSPAN n, OP 0x0A (40_byte_order.md R69) -/
  | getspan (n : Nat)
  /-- CRC1, OP 0x10 (41_checksum.md R77) -/
  | crc1
  /-- CRC2, OP 0x11 (41_checksum.md R78) -/
  | crc2
  /-- VERIFY, OP 0x12 (41_checksum.md R79) -/
  | verify
  deriving DecidableEq, Repr

end Sys2Proof
end

