-- ==== Sys2Proof/WellFormed.lean ====
section
/-! DEFINITION. Which commands a command word can spell (30_encoding.md R46, R48). -/

namespace Sys2Proof

/-- A span length is the 24-bit field ARG, so it is at most 0xFFFFFF (30_encoding.md R48); no other
command has an operand in its word. -/
def Instr.wellFormed : Instr → Bool
  | .nop => true
  | .put8 => true
  | .put16 => true
  | .put32 => true
  | .put64 => true
  | .get8 => true
  | .get16 => true
  | .get32 => true
  | .get64 => true
  | .putspan n => decide (n ≤ 0xFFFFFF)
  | .getspan n => decide (n ≤ 0xFFFFFF)
  | .crc1 => true
  | .crc2 => true
  | .verify => true

end Sys2Proof
end

