-- ==== Sys2Proof/Decode.lean ====
section
/-! DEFINITION. The command word: its two fields, the decoder and the encoder (30_encoding.md R46 to R51). -/

namespace Sys2Proof

/-- OP, bits 7:0 of a command word (30_encoding.md R46). -/
def opField (w : Word) : BitVec 8 := w.extractLsb' 0 8

/-- ARG, bits 31:8 of a command word (30_encoding.md R46). -/
def argField (w : Word) : BitVec 24 := w.extractLsb' 8 24

/-- Why a command word is illegal (30_encoding.md R49). -/
inductive DecodeError where
  /-- its OP is reserved in R47 -/
  | reservedOp
  /-- its ARG is not 0 and its command requires 0 -/
  | argNonzero
  deriving DecidableEq, Repr

/-- A command whose ARG must be 0 (30_encoding.md R49). -/
def requireZeroArg (w : Word) (i : Instr) : Except DecodeError Instr :=
  if argField w = 0#24 then .ok i else .error .argNonzero

/-- The decoder, total on every 32-bit word: the opcode map of 30_encoding.md R47 with the legality
rule R49. The span length is ARG read as unsigned, not scaled and not sign-extended (R48). -/
def decode (w : Word) : Except DecodeError Instr :=
  match (opField w).toNat with
  | 0x00 => requireZeroArg w .nop
  | 0x01 => requireZeroArg w .put8
  | 0x02 => requireZeroArg w .put16
  | 0x03 => requireZeroArg w .put32
  | 0x04 => requireZeroArg w .put64
  | 0x05 => requireZeroArg w .get8
  | 0x06 => requireZeroArg w .get16
  | 0x07 => requireZeroArg w .get32
  | 0x08 => requireZeroArg w .get64
  | 0x09 => .ok (.putspan (argField w).toNat)
  | 0x0A => .ok (.getspan (argField w).toNat)
  | 0x10 => requireZeroArg w .crc1
  | 0x11 => requireZeroArg w .crc2
  | 0x12 => requireZeroArg w .verify
  | _ => .error .reservedOp

/-- The opcode of a command (30_encoding.md R47). -/
def Instr.opcode : Instr → BitVec 8
  | .nop => 0x00#8
  | .put8 => 0x01#8
  | .put16 => 0x02#8
  | .put32 => 0x03#8
  | .put64 => 0x04#8
  | .get8 => 0x05#8
  | .get16 => 0x06#8
  | .get32 => 0x07#8
  | .get64 => 0x08#8
  | .putspan _ => 0x09#8
  | .getspan _ => 0x0A#8
  | .crc1 => 0x10#8
  | .crc2 => 0x11#8
  | .verify => 0x12#8

/-- The ARG field of a command: the span length, or 0 (30_encoding.md R48, R49). -/
def Instr.argument : Instr → BitVec 24
  | .nop => 0#24
  | .put8 => 0#24
  | .put16 => 0#24
  | .put32 => 0#24
  | .put64 => 0#24
  | .get8 => 0#24
  | .get16 => 0#24
  | .get32 => 0#24
  | .get64 => 0#24
  | .putspan n => BitVec.ofNat 24 n
  | .getspan n => BitVec.ofNat 24 n
  | .crc1 => 0#24
  | .crc2 => 0#24
  | .verify => 0#24

/-- The command word of a command: ARG in bits 31:8, OP in bits 7:0 (30_encoding.md R46; R55 writes it
`OP | (N << 8)`). -/
def encode (i : Instr) : Word := i.argument ++ i.opcode

/-- The decoder on an opcode-table word: bit n of `w` is bit n of the command word, and bits above the
row's `nbits` are 0. A command word has no bytes to order (20_memory.md R34). -/
def decodeTableWord (nbits w : Nat) : Option Instr :=
  match decode (BitVec.ofNat 32 (w % 2 ^ nbits)) with
  | .ok i => some i
  | .error _ => none

end Sys2Proof
end

