-- ==== Sys2Proof/Config.lean ====
section
/-! DEFINITION. What a platform fixes (spec/00_scope.md R6) and the values the spec leaves open. -/

namespace Sys2Proof

/-- `CRC_MODEL`, a parameter set in the catalogue terms of 41_checksum.md R73. -/
structure CrcModel where
  /-- the polynomial in normal form -/
  poly : Word
  /-- the initial value -/
  init : Word
  /-- bits of a byte are taken least significant first -/
  refIn : Bool
  /-- the result is delivered reflected -/
  refOut : Bool
  /-- the final XOR -/
  xorOut : Word
  deriving DecidableEq, Repr

/-- The default parameter set, CRC-32/ISO-HDLC (41_checksum.md R73). -/
def CrcModel.isoHdlc : CrcModel :=
  { poly := 0x04C11DB7#32, init := 0xFFFFFFFF#32, refIn := true, refOut := true, xorOut := 0xFFFFFFFF#32 }

/-- The implementation parameters of 00_scope.md R6. They are fixed for a run; State carries them so
that a statement over all states holds for every choice of them (log entry 2). -/
structure Params where
  /-- `BUF_CAP`, the buffer size in bytes -/
  bufCap : Nat
  /-- `BASE`, the bus address of the register region -/
  base : Nat
  /-- `CRC_MODEL` -/
  crcModel : CrcModel
  deriving DecidableEq, Repr

/-- The size of the region the block decodes, 16 MiB (20_memory.md R31). -/
def Config.regionSize : Nat := 0x01000000

/-- The offset of the buffer window from `BASE` (20_memory.md R31). -/
def Config.windowOffset : Nat := 0x10000

/-- The parameters' own bounds (00_scope.md R6): 29 ≤ `BUF_CAP` ≤ 0x00FF0000 and `BASE` aligned to 16 MiB. -/
abbrev Params.wf (p : Params) : Prop :=
  29 ≤ p.bufCap ∧ p.bufCap ≤ 0x00FF0000 ∧ p.base % Config.regionSize = 0

/-- The values for this hardware (00_scope.md R6): the default `BUF_CAP` of 65565 and the default
`CRC_MODEL`. DESIGN CHOICE (log entry 2): the spec leaves `BASE` OPEN, and this record puts it at 0.
Statements are about every `Params`, so none rests on that 0. -/
def Params.default : Params :=
  { bufCap := 65565, base := 0, crcModel := CrcModel.isoHdlc }

/-- FREE VALUE (20_memory.md R45): what the k-th read of a byte never written since power-up draws.
It has no body, so nothing can be proved of it, and each such read takes a k of its own
(log entry 3). -/
opaque Config.unwrittenByte : Nat → Byte

/-- FREE VALUE (log entry 10): what a host variable holds before the host program reads into it. -/
opaque Config.unsetHostVar : Nat → Nat

end Sys2Proof
end

