-- ==== Sys2Proof/Machine/State.lean ====
section
/-! DEFINITION. The block's state (spec/10_state.md R11), what the outside world does to it, and the
outcomes of a step. -/

namespace Sys2Proof.Machine

/-- The contents of BUF (10_state.md R12): the bytes written since power-up, by index, indices strictly
rising. A byte never written is listed nowhere and has no value of its own (20_memory.md R45). -/
abbrev Memory := List Host.Cell

/-- STATUS (10_state.md R18). BUSY (bit 8) and the reserved bits 7:6 and 31:9 read 0 always, so they
have no storage; `statusWord` reads them (log entry 12). -/
structure Status where
  /-- ERR, bits 3:0 -/
  err : BitVec 4
  /-- MATCH, bit 4 -/
  matched : Bool
  /-- STICKY, bit 5 -/
  sticky : Bool
  deriving DecidableEq, Repr

/-- The error names of 60_exceptions.md R89; `ErrCode.code` gives their numbers. -/
inductive ErrCode where
  /-- the command succeeded -/
  | eNone
  /-- a read past LIM -/
  | eTrunc
  /-- a write or reservation past LIM -/
  | eOverflow
  /-- a span past BUF_CAP -/
  | eSpan
  /-- an illegal command word -/
  | eIllegal
  deriving DecidableEq, Repr

/-- The registers of the map of 10_state.md R13. -/
inductive Reg where
  | cmd | status | pos | lim | dataHi | dataLo | crc | expect | aAddr | aLen | bAddr | bLen | spanAddr
  deriving DecidableEq, Repr

/-- One host access to a bus address, of a width in bits (20_memory.md R31, R37). The value of a write
is the bus word; an 8-bit write carries its byte in bits 7:0 (log entry 7). -/
inductive Access where
  | read (bits addr : Nat)
  | write (bits addr : Nat) (value : Word)
  deriving DecidableEq, Repr

/-- What reaches the block from outside, in one total order (20_memory.md R41): a host access, the reset
input (70_reset_and_hazards.md R101), or a new power-up, which counts as a reset (R101, R102). -/
inductive Arrival where
  | access (a : Access)
  | reset
  | powerUp
  deriving DecidableEq, Repr

/-- The value a host read returned: a register word (42_control.md R84) or a window byte (R86). -/
inductive Returned where
  | word (v : Word)
  | byte (b : Byte)
  deriving DecidableEq, Repr

/-- No step faults, so there is no reason to list: "A model of the block therefore has no fault state
and no stuck state of its own" (60_exceptions.md R88). -/
inductive Fault where
  deriving DecidableEq, Repr

/-- Why a step is refused. The block refuses host accesses only; it never refuses a command. -/
inductive Refusal where
  /-- Raised by `exec` for a command with no meaning yet; none is left. Safe: the model stops. -/
  | notModelled (mnemonic : String)
  /-- Raised by a host access inside the 16 MiB region that is neither a register offset nor a window
  address (20_memory.md R32). Safe: the model takes no step. -/
  | unmappedAddress
  /-- Raised by a host access to the register region that is not 32 bits wide or not at a multiple of 4
  (20_memory.md R37). Safe: the model takes no step. -/
  | registerAccessForm
  /-- Raised by a host access to the buffer window that is not 8 bits wide (20_memory.md R37).
  Safe: the model takes no step. -/
  | windowAccessForm
  /-- Raised by a bus access outside the 16 MiB region, to which the block does not respond
  (20_memory.md R31; log entry 6). Safe: the model takes no step. -/
  | outsideRegion
  deriving DecidableEq, Repr

end Sys2Proof.Machine

namespace Sys2Proof.Machine

/-- The machine's state: the block's own state (10_state.md R11), then the model's own fields. -/
structure State where
  /-- BUF (10_state.md R12) -/
  buf : Memory
  /-- STATUS (10_state.md R18) -/
  status : Status
  /-- POS, the cursor (10_state.md R19) -/
  pos : Word
  /-- LIM, the limit (10_state.md R20) -/
  lim : Word
  /-- DATA, seen by the host as DATA_HI and DATA_LO (10_state.md R21) -/
  data : DWord
  /-- CRC (10_state.md R22) -/
  crc : Word
  /-- EXPECT (10_state.md R23) -/
  expect : Word
  /-- A_ADDR (10_state.md R24) -/
  aAddr : Word
  /-- A_LEN (10_state.md R24) -/
  aLen : Word
  /-- B_ADDR (10_state.md R25) -/
  bAddr : Word
  /-- B_LEN (10_state.md R25) -/
  bLen : Word
  /-- SPAN_ADDR (10_state.md R26) -/
  spanAddr : Word
  /-- the model's own: the parameters of 00_scope.md R6, which no step changes (log entry 2) -/
  params : Params
  /-- the model's own: how many free values of unwritten bytes have been drawn (log entry 3) -/
  draws : Nat
  /-- the model's own: what will reach the port, in arrival order (log entry 1) -/
  arrivals : List Arrival
  /-- the model's own: the values host reads returned, newest first (10_state.md R30; log entry 5) -/
  returned : List Returned
  deriving DecidableEq, Repr

/-- The machine right after power-up, which counts as a reset (70_reset_and_hazards.md R101): the values
of 10_state.md R29, LIM at the default `BUF_CAP`, and no byte of BUF written. -/
def State.reset : State :=
  { buf := []
    status := { err := 0#4, matched := false, sticky := false }
    pos := 0#32
    lim := 65565#32
    data := 0#64
    crc := 0#32
    expect := 0#32
    aAddr := 0#32
    aLen := 0#32
    bAddr := 0#32
    bLen := 0#32
    spanAddr := 0#32
    params := Params.default
    draws := 0
    arrivals := []
    returned := [] }

end Sys2Proof.Machine
end

