-- ==== Sys2Proof/Machine/Flags.lean ====
section
/-! DEFINITION. Every computation of STATUS (spec/10_state.md R18; 30_encoding.md R53, R54;
41_checksum.md R79; 42_control.md R84, R85; 60_exceptions.md R89). -/

namespace Sys2Proof.Machine

/-- The error codes (60_exceptions.md R89). Codes 5 to 15 are reserved and never written (R90). -/
def ErrCode.code : ErrCode → BitVec 4
  | .eNone => 0#4
  | .eTrunc => 1#4
  | .eOverflow => 2#4
  | .eSpan => 3#4
  | .eIllegal => 4#4

/-- STATUS after a command ends without `raise`, with the MATCH it writes: false for every command but
VERIFY (30_encoding.md R53; 41_checksum.md R79). STICKY is unchanged. -/
def statusCompleted (m : Bool) (st : Status) : Status :=
  { err := ErrCode.eNone.code, matched := m, sticky := st.sticky }

/-- STATUS after `raise e` (30_encoding.md R54). -/
def statusFailed (e : ErrCode) : Status :=
  { err := e.code, matched := false, sticky := true }

/-- The word a host read of STATUS returns: ERR in bits 3:0, MATCH in bit 4, STICKY in bit 5; BUSY (bit
8) and every reserved bit are 0 (42_control.md R84). -/
def statusWord (st : Status) : Word :=
  st.err.setWidth 32 ||| ((BitVec.ofBool st.matched).setWidth 32 <<< 4) |||
    ((BitVec.ofBool st.sticky).setWidth 32 <<< 5)

/-- STATUS after a host write of `v`: bit 5 = 1 clears STICKY, and every other bit of `v` is ignored
(10_state.md R18; 42_control.md R85). -/
def statusWritten (v : Word) (st : Status) : Status :=
  { st with sticky := if v.getLsbD 5 then false else st.sticky }

/-- MATCH after a VERIFY that computed `c`: equality of the 32-bit patterns (41_checksum.md R79). -/
def verifyMatch (c expected : Word) : Bool := decide (c = expected)

end Sys2Proof.Machine
end

