-- ==== Sys2Proof/Machine/Ops.lean ====
section
/-! DEFINITION. The named operations over BUF, the registers and the outcome of a command
(spec/00_scope.md R9: MemRead, MemWrite, raise, complete). -/

namespace Sys2Proof.Machine

/-- What an operation answers. -/
abbrev Result := Host.Outcome State Fault Refusal

/-! ## One register each: the only writers of the state's fields -/

def State.setBuf (s : State) (m : Memory) : State := { s with buf := m }
def State.setStatus (s : State) (st : Status) : State := { s with status := st }
def State.setPos (s : State) (v : Word) : State := { s with pos := v }
def State.setLim (s : State) (v : Word) : State := { s with lim := v }
def State.setData (s : State) (v : DWord) : State := { s with data := v }
def State.setCrc (s : State) (v : Word) : State := { s with crc := v }
def State.setExpect (s : State) (v : Word) : State := { s with expect := v }
def State.setAAddr (s : State) (v : Word) : State := { s with aAddr := v }
def State.setALen (s : State) (v : Word) : State := { s with aLen := v }
def State.setBAddr (s : State) (v : Word) : State := { s with bAddr := v }
def State.setBLen (s : State) (v : Word) : State := { s with bLen := v }
def State.setSpanAddr (s : State) (v : Word) : State := { s with spanAddr := v }
def State.setDraws (s : State) (k : Nat) : State := { s with draws := k }
def State.setArrivals (s : State) (l : List Arrival) : State := { s with arrivals := l }

/-- A host read returns `r`; the newest value stands first. -/
def State.pushReturned (s : State) (r : Returned) : State := { s with returned := r :: s.returned }

/-! ## BUF -/

/-- The byte last written to index `a`, if one was written since power-up. -/
def Memory.lookup (a : Nat) : Memory → Option Byte
  | [] => none
  | (k, b) :: m => if k = a then some b else Memory.lookup a m

/-- `BUF[a] <- b`, keeping the indices strictly rising. -/
def Memory.insert (a : Nat) (b : Byte) : Memory → Memory
  | [] => [(a, b)]
  | (k, v) :: m =>
    if a < k then (a, b) :: (k, v) :: m
    else if a = k then (a, b) :: m
    else (k, v) :: Memory.insert a b m

/-- The bytes `bs` to indices `a`, `a + 1`, … in turn. -/
def Memory.insertAll : Nat → List Byte → Memory → Memory
  | _, [], m => m
  | a, b :: bs, m => Memory.insertAll (a + 1) bs (Memory.insert a b m)

/-- The canonical form: indices strictly rising. A listed byte is one that was written, whatever its
value, so there is no value for which an entry would have to go. -/
abbrev Memory.wf (m : Memory) : Prop := m.Pairwise (fun x y => x.1 < y.1)

/-- The read of BUF[a]: the byte last written, or, where none was written since power-up, a fresh free
value (20_memory.md R45; log entry 3). -/
def readByte (a : Nat) (s : State) : Byte × State :=
  match Memory.lookup a s.buf with
  | some b => (b, s)
  | none => (Config.unwrittenByte s.draws, s.setDraws (s.draws + 1))

/-- `MemRead(a, n)` (00_scope.md R9): BUF[a] to BUF[a + n − 1], lowest index first. -/
def memRead : Nat → Nat → State → List Byte × State
  | _, 0, s => ([], s)
  | a, n + 1, s =>
    let first := readByte a s
    let rest := memRead (a + 1) n first.2
    (first.1 :: rest.1, rest.2)

/-- `MemWrite(a, n, bs)` for the n bytes `bs` (00_scope.md R9). -/
def memWrite (a : Nat) (bs : List Byte) (s : State) : State :=
  s.setBuf (Memory.insertAll a bs s.buf)

/-- `POS <- POS + k` (40_byte_order.md R59). The callers have tested that the sum is at most LIM, so it
fits in 32 bits. -/
def advance (k : Nat) (s : State) : State := s.setPos (BitVec.ofNat 32 (s.pos.toNat + k))

/-! ## How a command ends -/

/-- `complete` (30_encoding.md R53): ERR and MATCH become 0, STICKY keeps its value. -/
def complete (s : State) : Result := .next (s.setStatus (statusCompleted false s.status))

/-- The successful end of a VERIFY, which writes MATCH itself (41_checksum.md R79). -/
def completeVerify (m : Bool) (s : State) : Result := .next (s.setStatus (statusCompleted m s.status))

/-- `raise e` (30_encoding.md R54), the one way a command fails: STATUS is written and nothing else. The
block has no trap to take; the failed command's outcome is a next state (60_exceptions.md R88, R95). -/
def raise (e : ErrCode) (s : State) : Result := .next (s.setStatus (statusFailed e))

/-! ## Reset -/

/-- The reset event (70_reset_and_hazards.md R101): every register takes its value of 10_state.md R29.
BUF keeps its bytes (R102), and the parameters are fixed. -/
def resetRegisters (s : State) : State :=
  { s with
    status := { err := 0#4, matched := false, sticky := false }
    pos := 0#32
    lim := BitVec.ofNat 32 s.params.bufCap
    data := 0#64
    crc := 0#32
    expect := 0#32
    aAddr := 0#32
    aLen := 0#32
    bAddr := 0#32
    bLen := 0#32
    spanAddr := 0#32 }

/-- Power-up: a reset after which every byte of BUF is unspecified (70_reset_and_hazards.md R101, R102;
log entry 4). -/
def powerUp (s : State) : State := (resetRegisters s).setBuf []

end Sys2Proof.Machine
end

