-- ==== Sys2Proof/Machine/Operands.lean ====
section
/-! DEFINITION. Operand forms: bounds tests, byte conversions, the register map
(spec/00_scope.md R8; 40_byte_order.md R57, R58; 41_checksum.md R76; 10_state.md R13). -/

namespace Sys2Proof.Machine

/-- `bytes_be(v, n)` (00_scope.md R8): the n bytes of `v mod 256^n`, most significant first. -/
def bytesBE (v : Nat) : Nat → List Byte
  | 0 => []
  | n + 1 => BitVec.ofNat 8 (v / 256 ^ n) :: bytesBE v n

/-- `be(s)` (00_scope.md R8): the number a byte sequence denotes with its first byte most significant. -/
def beNat : List Byte → Nat
  | [] => 0
  | b :: bs => b.toNat * 256 ^ bs.length + beNat bs

/-- `encode_w(v)` (40_byte_order.md R58): the w bytes of `v[8w-1:0]`, big-endian. -/
def encodeBytes (w : Nat) (v : DWord) : List Byte := bytesBE v.toNat w

/-- `decode_w(s)` (40_byte_order.md R58): `zext_64(be(s))`. -/
def decodeBytes (bs : List Byte) : DWord := BitVec.ofNat 64 (beNat bs)

/-- `fits(k)` (40_byte_order.md R57): `POS + k ≤ LIM` on unbounded integers. -/
def fits (k : Nat) (s : State) : Bool := decide (s.pos.toNat + k ≤ s.lim.toNat)

/-- `span_ok(addr, len)` (41_checksum.md R76): `addr + len ≤ BUF_CAP` on unbounded integers, against
`BUF_CAP` and not LIM. -/
def spanOk (addr len : Word) (s : State) : Bool := decide (addr.toNat + len.toNat ≤ s.params.bufCap)

/-- The bytes of span A (10_state.md R24). -/
def readSpanA (s : State) : List Byte × State := memRead s.aAddr.toNat s.aLen.toNat s

/-- The bytes of span B (10_state.md R25). -/
def readSpanB (s : State) : List Byte × State := memRead s.bAddr.toNat s.bLen.toNat s

/-- `LIM <- min(v, BUF_CAP)` (10_state.md R20). -/
def clampLim (v : Word) (s : State) : Word := BitVec.ofNat 32 (min v.toNat s.params.bufCap)

/-- DATA_HI, DATA[63:32] (10_state.md R21). -/
def dataHi (d : DWord) : Word := d.extractLsb' 32 32

/-- DATA_LO, DATA[31:0] (10_state.md R21). -/
def dataLo (d : DWord) : Word := d.extractLsb' 0 32

/-- A host write to DATA_HI leaves DATA_LO unchanged (10_state.md R21). -/
def withDataHi (v : Word) (d : DWord) : DWord := v ++ dataLo d

/-- A host write to DATA_LO leaves DATA_HI unchanged (10_state.md R21). -/
def withDataLo (v : Word) (d : DWord) : DWord := dataHi d ++ v

/-- The offset of a register from `BASE` (10_state.md R13). -/
def Reg.offset : Reg → Nat
  | .cmd => 0x00
  | .status => 0x04
  | .pos => 0x08
  | .lim => 0x0C
  | .dataHi => 0x10
  | .dataLo => 0x14
  | .crc => 0x18
  | .expect => 0x1C
  | .aAddr => 0x20
  | .aLen => 0x24
  | .bAddr => 0x28
  | .bLen => 0x2C
  | .spanAddr => 0x30

/-- The register at a word-aligned offset; none where the offset is reserved, 0x34 to 0xFFFC
(10_state.md R13, R17). -/
def regAt (o : Nat) : Option Reg :=
  match o with
  | 0x00 => some .cmd
  | 0x04 => some .status
  | 0x08 => some .pos
  | 0x0C => some .lim
  | 0x10 => some .dataHi
  | 0x14 => some .dataLo
  | 0x18 => some .crc
  | 0x1C => some .expect
  | 0x20 => some .aAddr
  | 0x24 => some .aLen
  | 0x28 => some .bAddr
  | 0x2C => some .bLen
  | 0x30 => some .spanAddr
  | _ => none

end Sys2Proof.Machine
end

