-- ==== Sys2Proof/Machine/ByteOrder.lean ====
section
/-! DEFINITION. The big-endian word encoder and decoder commands (spec/40_byte_order.md). -/

namespace Sys2Proof.Machine

/-- PUTw (40_byte_order.md R60 to R63): w bytes of DATA, big-endian, to BUF at POS, or E_OVERFLOW. -/
def putInt (w : Nat) (s : State) : Result :=
  if fits w s then complete (advance w (memWrite s.pos.toNat (encodeBytes w s.data) s))
  else raise .eOverflow s

/-- GETw (40_byte_order.md R64 to R67): w bytes of BUF at POS, big-endian, zero-extended to DATA, or
E_TRUNC. -/
def getInt (w : Nat) (s : State) : Result :=
  if fits w s then
    let r := memRead s.pos.toNat w s
    complete (advance w (r.2.setData (decodeBytes r.1)))
  else raise .eTrunc s

/-- PUTSPAN and GETSPAN (40_byte_order.md R68, R69): SPAN_ADDR takes the old POS and POS advances by n,
or the error `e`. No byte of BUF is read or written. -/
def takeSpan (e : ErrCode) (n : Nat) (s : State) : Result :=
  if fits n s then complete (advance n (s.setSpanAddr s.pos)) else raise e s

/-- PUT8 (40_byte_order.md R60). -/
def execPut8 (s : State) : Result := putInt 1 s

/-- PUT16 (40_byte_order.md R61). -/
def execPut16 (s : State) : Result := putInt 2 s

/-- PUT32 (40_byte_order.md R62). -/
def execPut32 (s : State) : Result := putInt 4 s

/-- PUT64 (40_byte_order.md R63). -/
def execPut64 (s : State) : Result := putInt 8 s

/-- GET8 (40_byte_order.md R64). -/
def execGet8 (s : State) : Result := getInt 1 s

/-- GET16 (40_byte_order.md R65). -/
def execGet16 (s : State) : Result := getInt 2 s

/-- GET32 (40_byte_order.md R66). -/
def execGet32 (s : State) : Result := getInt 4 s

/-- GET64 (40_byte_order.md R67). -/
def execGet64 (s : State) : Result := getInt 8 s

/-- PUTSPAN n (40_byte_order.md R68). -/
def execPutspan (n : Nat) (s : State) : Result := takeSpan .eOverflow n s

/-- GETSPAN n (40_byte_order.md R69). -/
def execGetspan (n : Nat) (s : State) : Result := takeSpan .eTrunc n s

end Sys2Proof.Machine
end

