-- ==== Sys2Proof/Machine/CrcFunction.lean ====
section
/-! DEFINITION. The checksum function (spec/41_checksum.md R72 to R75). -/

namespace Sys2Proof.Machine

/-- One turn of the inner loop of 41_checksum.md R72, for a polynomial in reflected form: shift right
by one, and XOR the polynomial where the bit shifted out was 1. -/
def crcBit (poly c : Word) : Word :=
  if c.getLsbD 0 then (c >>> 1) ^^^ poly else c >>> 1

/-- `repeat n times` the inner loop. -/
def crcBits (poly : Word) : Nat → Word → Word
  | 0, c => c
  | n + 1, c => crcBits poly n (crcBit poly c)

/-- One byte into the running value (41_checksum.md R72): `c <- c XOR zext_32(b)`, then the inner loop
8 times. -/
def crcByte (poly c : Word) (b : Byte) : Word := crcBits poly 8 (c ^^^ b.setWidth 32)

/-- The bytes of `bs` into the running value, first to last (41_checksum.md R72). -/
def crcRun (poly : Word) (c : Word) (bs : List Byte) : Word := bs.foldl (crcByte poly) c

/-- `crc32(s)`, letter for letter as 41_checksum.md R72 writes it. -/
def crc32 (bs : List Byte) : Word := crcRun 0xEDB88320#32 0xFFFFFFFF#32 bs ^^^ 0xFFFFFFFF#32

/-- `checksum(bytes)` for a parameter set (41_checksum.md R73): the loop of R72 with the set's
polynomial and initial value in reflected form, the bits of each byte in the order the set asks for,
and its output reflection and final XOR. Empty input gives 0 whatever the set (R74).
PRESUMED (log entry 9): what the catalogue's terms mean for a set other than the default. -/
def checksum (M : CrcModel) (bs : List Byte) : Word :=
  if bs = [] then 0#32
  else
    let c := crcRun M.poly.reverse M.init.reverse (bs.map fun b => if M.refIn then b else b.reverse)
    (if M.refOut then c else c.reverse) ^^^ M.xorOut

/-- The table of a byte-wide implementation: entry `b` is the inner loop run 8 times on `b`. -/
def crcTable (poly : Word) (b : Byte) : Word := crcBits poly 8 (b.setWidth 32)

/-- One byte of a table-driven implementation (41_checksum.md R72 allows any that gives the same value):
the entry for the low byte, XORed with the register shifted right by a byte. -/
def crcByteByTable (poly c : Word) (b : Byte) : Word :=
  crcTable poly (c.setWidth 8 ^^^ b) ^^^ (c >>> 8)

/-- `crc32` by table. The machine does not use it; a statement says it equals `crc32`. -/
def crc32ByTable (bs : List Byte) : Word :=
  bs.foldl (crcByteByTable 0xEDB88320#32) 0xFFFFFFFF#32 ^^^ 0xFFFFFFFF#32

/-- One bit of the unreflected form of the register, for a polynomial in normal form: shift left by one,
and XOR the polynomial where the bit shifted out was 1. -/
def crcBitNormal (poly c : Word) : Word :=
  if c.msb then (c <<< 1) ^^^ poly else c <<< 1

/-- `repeat n times` the unreflected loop. -/
def crcBitsNormal (poly : Word) : Nat → Word → Word
  | 0, c => c
  | n + 1, c => crcBitsNormal poly n (crcBitNormal poly c)

/-- One byte into the top of the unreflected register. -/
def crcByteNormal (poly c : Word) (b : Byte) : Word :=
  crcBitsNormal poly 8 (c ^^^ (b.setWidth 32 <<< 24))

/-- The checksum of a parameter set computed with the catalogue's normal-form register, most significant
bit first. The machine does not use it; a statement says it equals `checksum`. -/
def checksumNormal (M : CrcModel) (bs : List Byte) : Word :=
  if bs = [] then 0#32
  else
    let c := (bs.map fun b => if M.refIn then b.reverse else b).foldl (crcByteNormal M.poly) M.init
    (if M.refOut then c.reverse else c) ^^^ M.xorOut

end Sys2Proof.Machine
end

