-- ==== Sys2Proof/Machine/Checksum.lean ====
section
/-! DEFINITION. The CRC-32 validator commands (spec/41_checksum.md R77 to R79). -/

namespace Sys2Proof.Machine

/-- CRC1 (41_checksum.md R77): `checksum` of span A to CRC, or E_SPAN. -/
def execCrc1 (s : State) : Result :=
  if spanOk s.aAddr s.aLen s then
    let a := readSpanA s
    complete (a.2.setCrc (checksum s.params.crcModel a.1))
  else raise .eSpan s

/-- CRC2 (41_checksum.md R78): `checksum` of span A followed by span B to CRC, or E_SPAN. -/
def execCrc2 (s : State) : Result :=
  if spanOk s.aAddr s.aLen s then
    if spanOk s.bAddr s.bLen s then
      let a := readSpanA s
      let b := readSpanB a.2
      complete (b.2.setCrc (checksum s.params.crcModel (a.1 ++ b.1)))
    else raise .eSpan s
  else raise .eSpan s

/-- VERIFY (41_checksum.md R79): `checksum` of span A to CRC and its comparison with EXPECT to MATCH, or
E_SPAN. A mismatch is no error. -/
def execVerify (s : State) : Result :=
  if spanOk s.aAddr s.aLen s then
    let a := readSpanA s
    let c := checksum s.params.crcModel a.1
    completeVerify (verifyMatch c s.expect) (a.2.setCrc c)
  else raise .eSpan s

end Sys2Proof.Machine
end

