-- ==== Sys2Proof/Machine/Control.lean ====
section
/-! DEFINITION. The control command (spec/42_control.md R83). -/

namespace Sys2Proof.Machine

/-- NOP (42_control.md R83): `complete`, and nothing else. -/
def execNop (s : State) : Result := complete s

end Sys2Proof.Machine
end

