-- ==== Sys2Proof/Machine/Dispatch.lean ====
section
/-! DEFINITION. The meaning of each command, one arm a constructor (spec/30_encoding.md R47, R51). -/

namespace Sys2Proof.Machine

def exec (i : Instr) (s : State) : Host.Outcome State Fault Refusal :=
  match i with
  | .nop => Sys2Proof.Machine.execNop s
  | .put8 => Sys2Proof.Machine.execPut8 s
  | .put16 => Sys2Proof.Machine.execPut16 s
  | .put32 => Sys2Proof.Machine.execPut32 s
  | .put64 => Sys2Proof.Machine.execPut64 s
  | .get8 => Sys2Proof.Machine.execGet8 s
  | .get16 => Sys2Proof.Machine.execGet16 s
  | .get32 => Sys2Proof.Machine.execGet32 s
  | .get64 => Sys2Proof.Machine.execGet64 s
  | .putspan n => Sys2Proof.Machine.execPutspan n s
  | .getspan n => Sys2Proof.Machine.execGetspan n s
  | .crc1 => Sys2Proof.Machine.execCrc1 s
  | .crc2 => Sys2Proof.Machine.execCrc2 s
  | .verify => Sys2Proof.Machine.execVerify s

end Sys2Proof.Machine
end

