-- ==== Sys2Proof/Machine/HostAccess.lean ====
section
/-! DEFINITION. What reaches the block's port: host accesses, a write to CMD among them, and reset
(spec/20_memory.md R31, R32, R37; 30_encoding.md R51; 42_control.md R84 to R87; 70_reset_and_hazards.md R101). -/

namespace Sys2Proof.Machine

/-- A host write of `w` to CMD (30_encoding.md R51): the legality check first, then the command. An
illegal word completes with E_ILLEGAL and changes nothing else (R49). -/
def performCommand (w : Word) (s : State) : Result :=
  match decode w with
  | .ok i => exec i s
  | .error _ => raise .eIllegal s

/-- The value a host read of a register returns (42_control.md R84). -/
def readReg (r : Reg) (s : State) : Word :=
  match r with
  | .cmd => 0#32
  | .status => statusWord s.status
  | .pos => s.pos
  | .lim => s.lim
  | .dataHi => dataHi s.data
  | .dataLo => dataLo s.data
  | .crc => s.crc
  | .expect => s.expect
  | .aAddr => s.aAddr
  | .aLen => s.aLen
  | .bAddr => s.bAddr
  | .bLen => s.bLen
  | .spanAddr => s.spanAddr

/-- A host write of `v` to a register (42_control.md R85); CRC and SPAN_ADDR are read-only
(10_state.md R17). -/
def writeReg (r : Reg) (v : Word) (s : State) : Result :=
  match r with
  | .cmd => performCommand v s
  | .status => .next (s.setStatus (statusWritten v s.status))
  | .pos => .next (s.setPos v)
  | .lim => .next (s.setLim (clampLim v s))
  | .dataHi => .next (s.setData (withDataHi v s.data))
  | .dataLo => .next (s.setData (withDataLo v s.data))
  | .crc => .next s
  | .expect => .next (s.setExpect v)
  | .aAddr => .next (s.setAAddr v)
  | .aLen => .next (s.setALen v)
  | .bAddr => .next (s.setBAddr v)
  | .bLen => .next (s.setBLen v)
  | .spanAddr => .next s

/-- A host read at a register offset; a reserved offset reads 0 (10_state.md R17). -/
def readOffset (o : Nat) (s : State) : Word :=
  match regAt o with
  | some r => readReg r s
  | none => 0#32

/-- A host write at a register offset; a reserved offset ignores it (10_state.md R17). -/
def writeOffset (o : Nat) (v : Word) (s : State) : Result :=
  match regAt o with
  | some r => writeReg r v s
  | none => .next s

/-- A host read of window byte `i` (42_control.md R86): POS and LIM are ignored. -/
def readWindow (i : Nat) (s : State) : Result :=
  let r := readByte i s
  .next (r.2.pushReturned (.byte r.1))

/-- A host write of `b` to window byte `i` (42_control.md R87): POS and LIM are ignored. -/
def writeWindow (i : Nat) (b : Byte) (s : State) : Result :=
  .next (memWrite i [b] s)

/-- Where a bus access goes. -/
inductive Target where
  /-- the register region, at an offset from `BASE` -/
  | register (o : Nat)
  /-- the buffer window, at a byte index -/
  | window (i : Nat)
  /-- nowhere the block responds -/
  | refuse (r : Refusal)
  deriving DecidableEq, Repr

/-- The address map and the access widths (20_memory.md R31, R32, R37). -/
def route (p : Params) (bits addr : Nat) : Target :=
  if addr < p.base ∨ p.base + Config.regionSize ≤ addr then .refuse .outsideRegion
  else
    let o := addr - p.base
    if o < Config.windowOffset then
      if bits = 32 ∧ o % 4 = 0 then .register o else .refuse .registerAccessForm
    else if o < Config.windowOffset + p.bufCap then
      if bits = 8 then .window (o - Config.windowOffset) else .refuse .windowAccessForm
    else .refuse .unmappedAddress

/-- One host access (42_control.md R84 to R87). -/
def hostAccess (a : Access) (s : State) : Result :=
  match a with
  | .read bits addr =>
    match route s.params bits addr with
    | .register o => .next (s.pushReturned (.word (readOffset o s)))
    | .window i => readWindow i s
    | .refuse r => .refused r
  | .write bits addr v =>
    match route s.params bits addr with
    | .register o => writeOffset o v s
    | .window i => writeWindow i (v.setWidth 8) s
    | .refuse r => .refused r

/-- One arrival at the port. -/
def takeArrival (x : Arrival) (s : State) : Result :=
  match x with
  | .access a => hostAccess a s
  | .reset => .next (resetRegisters s)
  | .powerUp => .next (powerUp s)

/-- The host write that issues the command word `w`. -/
def cmdWrite (p : Params) (w : Word) : Arrival := .access (.write 32 (p.base + Reg.cmd.offset) w)

end Sys2Proof.Machine
end

