-- ==== Sys2Proof/Machine/Step.lean ====
section
/-! DEFINITION. One step: the next arrival at the port takes effect, whole (spec/20_memory.md R38, R41). -/

namespace Sys2Proof.Machine

/-- The block takes the next arrival; with none it is idle and keeps its state (60_exceptions.md R100;
70_reset_and_hazards.md R103). -/
def step (s : State) : Host.Outcome State Fault Refusal :=
  match s.arrivals with
  | [] => .next s
  | x :: rest => takeArrival x (s.setArrivals rest)

/-- The state whose next step takes the command word `w`: a host write of it to CMD arrives first
(10_state.md R16; log entry 1). -/
def State.withFetchWord (s : State) (nbits w : Nat) : State :=
  s.setArrivals (cmdWrite s.params (BitVec.ofNat 32 (w % 2 ^ nbits)) :: s.arrivals)

end Sys2Proof.Machine
end

