-- ==== Sys2Proof/Machine/HostProgram.lean ====
section
/-! DEFINITION. The client's notation (spec/30_encoding.md R55, R56; 42_control.md R82): host operations,
pseudo-instructions and the host program that issues them. All of it runs on the host; the block sees
only the accesses. -/

namespace Sys2Proof.Machine

/-- A host expression: numbers and host variables with `+`, `|` and `<<` (30_encoding.md R55), and the
field `x[hi:lo]` of one (00_scope.md R7), which the expansions of R56 take of their operands. -/
inductive HostExpr where
  | num (n : Nat)
  | var (t : Nat)
  | add (x y : HostExpr)
  | bor (x y : HostExpr)
  | shl (x y : HostExpr)
  | field (x : HostExpr) (hi lo : Nat)
  deriving DecidableEq, Repr

/-- The host operations of 30_encoding.md R55. "An operand may also be a host expression": every operand
that is a number is one here; a register name, a host variable and a label are names. DESIGN CHOICE (log
entry 10): the spec does not say which operands that sentence is about. -/
inductive HostOp where
  /-- write the command word of R47 to CMD; a span length stands in the command as a number -/
  | command (i : Instr)
  /-- `putspan N`, of an expression -/
  | putspan (n : HostExpr)
  /-- `getspan N`, of an expression -/
  | getspan (n : HostExpr)
  /-- `wr REG, V` -/
  | wr (r : Reg) (v : HostExpr)
  /-- `rd REG -> t` -/
  | rd (r : Reg) (t : Nat)
  /-- `wrb I, B` -/
  | wrb (i b : HostExpr)
  /-- `rdb I -> t` -/
  | rdb (i : HostExpr) (t : Nat)
  deriving DecidableEq, Repr

/-- The integer width a PUT pseudo-instruction names (30_encoding.md R56, `putN`). -/
inductive PutWidth where
  | n8 | n16 | n32 | n64
  deriving DecidableEq, Repr

/-- The pseudo-instructions of 30_encoding.md R56, every number of theirs a host expression (log entry 10). -/
inductive Pseudo where
  | seek (p : HostExpr)
  | limit (l : HostExpr)
  | ld64 (v : HostExpr)
  | putN (n : PutWidth) (v : HostExpr)
  | spana (a n : HostExpr)
  | spanb (b m : HostExpr)
  | expect (v : HostExpr)
  | crc (a n : HostExpr)
  | crcpair (a n b m : HostExpr)
  | check (a n v : HostExpr)
  | putcrc (t : Nat)
  | wrbytes (i : HostExpr) (bs : List HostExpr)
  | clrsticky
  | status (t : Nat)
  deriving DecidableEq, Repr

/-- The comparisons of a COND (30_encoding.md R55). -/
inductive HostCmp where
  | eq | ne | lt | gt
  deriving DecidableEq, Repr

/-- A line of a host program (30_encoding.md R55). A label stands for the number of the line it marks. -/
inductive HostLine where
  | op (o : HostOp)
  | pseudo (p : Pseudo)
  | ifGoto (t : Nat) (c : HostCmp) (n : Nat) (target : Nat)
  | halt
  deriving DecidableEq, Repr

/-- A host that runs a program, beside the block it drives. DESIGN CHOICE (log entry 14): it is a lone
host. The spec leaves the order of several agents' accesses open (60_exceptions.md R99); here no other
agent's access and no reset comes between two operations, and `block.arrivals` is never taken. -/
structure HostSystem where
  /-- the host program -/
  lines : List HostLine
  /-- the next line -/
  line : Nat
  /-- operations of the current line still to issue -/
  todo : List HostOp
  /-- the host variables written so far, the latest value of each first -/
  vars : List (Nat × Nat)
  /-- the block -/
  block : State
  deriving DecidableEq, Repr

/-- The value of a host variable; one not yet written holds a free value (log entry 10). -/
def hostVar (vars : List (Nat × Nat)) (t : Nat) : Nat :=
  match vars with
  | [] => Config.unsetHostVar t
  | (k, v) :: rest => if k = t then v else hostVar rest t

/-- The value of a host expression (log entry 10: computed without a width). -/
def evalExpr (vars : List (Nat × Nat)) : HostExpr → Nat
  | .num n => n
  | .var t => hostVar vars t
  | .add x y => evalExpr vars x + evalExpr vars y
  | .bor x y => evalExpr vars x ||| evalExpr vars y
  | .shl x y => evalExpr vars x <<< evalExpr vars y
  | .field x hi lo => (evalExpr vars x >>> lo) % 2 ^ (hi + 1 - lo)

/-- The word `OP | (N << 8)` of a span command (30_encoding.md R55). DESIGN CHOICE (log entry 10): of an
N above 0xFFFFFF, for which R55 gives no word, it is the low 32 bits, as of every expression. -/
def spanWord (vars : List (Nat × Nat)) (op : Nat) (n : HostExpr) : Word :=
  BitVec.ofNat 32 (evalExpr vars (.bor (.num op) (.shl n (.num 8))))

/-- The access an operation makes (30_encoding.md R55). The host writes only the 32-bit value of an
expression. -/
def hostOpAccess (p : Params) (vars : List (Nat × Nat)) : HostOp → Access
  | .command i => .write 32 (p.base + Reg.cmd.offset) (encode i)
  | .putspan n => .write 32 (p.base + Reg.cmd.offset) (spanWord vars 0x09 n)
  | .getspan n => .write 32 (p.base + Reg.cmd.offset) (spanWord vars 0x0A n)
  | .wr r v => .write 32 (p.base + r.offset) (BitVec.ofNat 32 (evalExpr vars v))
  | .rd r _ => .read 32 (p.base + r.offset)
  | .wrb i b => .write 8 (p.base + Config.windowOffset + evalExpr vars i) (BitVec.ofNat 32 (evalExpr vars b))
  | .rdb i _ => .read 8 (p.base + Config.windowOffset + evalExpr vars i)

/-- The host variable an operation reads into. -/
def hostOpTarget : HostOp → Option Nat
  | .command _ => none
  | .putspan _ => none
  | .getspan _ => none
  | .wr _ _ => none
  | .rd _ t => some t
  | .wrb _ _ => none
  | .rdb _ t => some t

/-- The number a returned value is to the host. -/
def returnedNat : Returned → Nat
  | .word v => v.toNat
  | .byte b => b.toNat

/-- `putN` (30_encoding.md R56). -/
def putCommand : PutWidth → Instr
  | .n8 => .put8
  | .n16 => .put16
  | .n32 => .put32
  | .n64 => .put64

/-- The bits of V that `putN #V` takes. DESIGN CHOICE (log entry 10): R56 writes `ld64 zext_64(V)` and gives
V no width; the model reads V as an N-bit number, so `put8 #0x1FF` loads 0xFF into DATA. The bytes that
`putN` writes do not depend on it. -/
def putBits : PutWidth → Nat
  | .n8 => 8
  | .n16 => 16
  | .n32 => 32
  | .n64 => 64

/-- `ld64 V` (30_encoding.md R56). -/
def expandLd64 (v : HostExpr) : List HostOp :=
  [.wr .dataHi (.field v 63 32), .wr .dataLo (.field v 31 0)]

/-- `wrbytes I, ⟨b0, …, bk⟩` (30_encoding.md R56), from the byte at offset `k` on. -/
def expandWrbytes (i : HostExpr) (k : Nat) : List HostExpr → List HostOp
  | [] => []
  | b :: bs => .wrb (.add i (.num k)) b :: expandWrbytes i (k + 1) bs

/-- The exact expansions of 30_encoding.md R56. -/
def expand : Pseudo → List HostOp
  | .seek p => [.wr .pos p]
  | .limit l => [.wr .lim l]
  | .ld64 v => expandLd64 v
  | .putN n v => expandLd64 (.field v (putBits n - 1) 0) ++ [.command (putCommand n)]
  | .spana a n => [.wr .aAddr a, .wr .aLen n]
  | .spanb b m => [.wr .bAddr b, .wr .bLen m]
  | .expect v => [.wr .expect v]
  | .crc a n => [.wr .aAddr a, .wr .aLen n, .command .crc1]
  | .crcpair a n b m => [.wr .aAddr a, .wr .aLen n, .wr .bAddr b, .wr .bLen m, .command .crc2]
  | .check a n v => [.wr .aAddr a, .wr .aLen n, .wr .expect v, .command .verify]
  | .putcrc t => [.rd .crc t, .wr .dataHi (.num 0), .wr .dataLo (.var t), .command .put32]
  | .wrbytes i bs => expandWrbytes i 0 bs
  | .clrsticky => [.wr .status (.num 0x20)]
  | .status t => [.rd .status t]

/-- A COND: a host variable compared with a number (30_encoding.md R55). -/
def hostCompare : HostCmp → Nat → Nat → Bool
  | .eq, x, n => decide (x = n)
  | .ne, x, n => decide (x ≠ n)
  | .lt, x, n => decide (x < n)
  | .gt, x, n => decide (x > n)

/-- The host issues one operation to the block: the access, and for a read the value returned into the
host variable. No arrival of another agent is taken with it (log entry 14). -/
def issue (o : HostOp) (h : HostSystem) : Host.Outcome HostSystem Fault Refusal :=
  match hostAccess (hostOpAccess h.block.params h.vars o) h.block with
  | .next b =>
    match hostOpTarget o, b.returned with
    | some t, r :: _ => .next { h with block := b, vars := (t, returnedNat r) :: h.vars }
    | _, _ => .next { h with block := b }
  | .fault f => .fault f
  | .refused r => .refused r

/-- The host issues the operations in the order shown, each to the block the one before left. -/
def issueAll : List HostOp → HostSystem → Host.Outcome HostSystem Fault Refusal
  | [], h => .next h
  | o :: os, h =>
    match issue o h with
    | .next h' => issueAll os h'
    | .fault f => .fault f
    | .refused r => .refused r

/-- One step of the host: the next operation of the current line, or the next line. Past the last line,
and at `halt`, the program has ended and nothing more reaches the block. DESIGN CHOICE (log entry 14): the
host is alone, so two of its operations have no other agent's access and no reset between them, although
60_exceptions.md R99 says a client's sequence is not atomic against another agent. -/
def hostStep (h : HostSystem) : Host.Outcome HostSystem Fault Refusal :=
  match h.todo with
  | o :: rest => issue o { h with todo := rest }
  | [] =>
    match h.lines[h.line]? with
    | none => .next h
    | some .halt => .next h
    | some (.op o) => .next { h with line := h.line + 1, todo := [o] }
    | some (.pseudo p) => .next { h with line := h.line + 1, todo := expand p }
    | some (.ifGoto t c n target) =>
      .next { h with line := if hostCompare c (hostVar h.vars t) n then target else h.line + 1 }

/-- `sext_64` of the w-byte field a GETw left in DATA: a client's signed reading (40_byte_order.md R71;
00_scope.md R8). The block itself never sign-extends. -/
def signedField (w : Nat) (d : DWord) : DWord := (d.setWidth (8 * w)).signExtend 64

end Sys2Proof.Machine
end

