-- ==== Sys2Proof/Safety.lean ====
section
/-! DEFINITION. The terms claims use: what a read of BUF may give, and the legal states. -/

namespace Sys2Proof.Machine

/-- The byte at a buffer index as the state knows it: the byte last written, or none where no PUT and no
window write has written it since power-up (spec/20_memory.md R45). -/
def State.byteAt (s : State) (a : Nat) : Option Byte := Memory.lookup a s.buf

/-- The bytes `bs` are a possible reading of BUF from index `a` on: every written byte gives its value,
and a byte never written may give any (20_memory.md R45). -/
def State.mayRead (s : State) (a : Nat) (bs : List Byte) : Prop :=
  ∀ i (h : i < bs.length), ∀ b, s.byteAt (a + i) = some b → bs[i] = b

/-- Every byte of the n from index `a` on has been written since power-up. -/
def State.written (s : State) (a n : Nat) : Prop := ∀ i, i < n → ∃ b, s.byteAt (a + i) = some b

/-- What no reachable state breaks: the parameters are within their bounds (00_scope.md R6), BUF is in
canonical form and holds no index past `BUF_CAP` (10_state.md R12), LIM ≤ `BUF_CAP` (R28), ERR holds a
code of 60_exceptions.md R89 (R90), and MATCH is 1 only beside ERR = 0 (30_encoding.md R54; 90_conflicts.md C9). -/
structure State.Inv (s : State) : Prop where
  params : s.params.wf
  sorted : Memory.wf s.buf
  inside : ∀ c ∈ s.buf, c.1 < s.params.bufCap
  lim : s.lim.toNat ≤ s.params.bufCap
  err : s.status.err.toNat ≤ 4
  matched : s.status.matched = true → s.status.err = 0#4

/-- How many bytes a command moves or reserves at the cursor (spec/40_byte_order.md R57, R59); none for a
command that does not use the cursor. -/
def cursorBytes : Instr → Option Nat
  | .nop => none
  | .put8 => some 1
  | .put16 => some 2
  | .put32 => some 4
  | .put64 => some 8
  | .get8 => some 1
  | .get16 => some 2
  | .get32 => some 4
  | .get64 => some 8
  | .putspan n => some n
  | .getspan n => some n
  | .crc1 => none
  | .crc2 => none
  | .verify => none

/-- The read-type cursor commands, GETw and GETSPAN (40_byte_order.md R57). -/
def readsAtCursor : Instr → Bool
  | .nop => false
  | .put8 => false
  | .put16 => false
  | .put32 => false
  | .put64 => false
  | .get8 => true
  | .get16 => true
  | .get32 => true
  | .get64 => true
  | .putspan _ => false
  | .getspan _ => true
  | .crc1 => false
  | .crc2 => false
  | .verify => false

/-- A host access the block takes: a 32-bit one at a multiple of 4 in the register region, or an 8-bit
one in the buffer window (20_memory.md R31, R32, R37). -/
def legalAccess (p : Params) (bits addr : Nat) : Prop :=
  (bits = 32 ∧ ∃ o, addr = p.base + o ∧ o < 0x10000 ∧ o % 4 = 0) ∨
  (bits = 8 ∧ ∃ i, addr = p.base + 0x10000 + i ∧ i < p.bufCap)

/-- The width in bits of an access. -/
def Access.bits : Access → Nat
  | .read bits _ => bits
  | .write bits _ _ => bits

/-- The bus address of an access. -/
def Access.addr : Access → Nat
  | .read _ addr => addr
  | .write _ addr _ => addr

end Sys2Proof.Machine
end

