-- ==== Sys2Proof/Certificates/Slice0/Obligations.lean ====
section
/-! DEFINITION. The statements for the provers, each from the numbered rules of spec/. In all of them
`exec i s` is a command's own effect, `performCommand w s` a host write of `w` to CMD, `takeArrival x s`
one arrival at the port, and `step` the machine's step. -/

open Sys2Proof Sys2Proof.Machine

/-! ## Reset -/

/-- 10_state.md R29: the value of every register after reset, and no defined byte in BUF. The values of
the model's own fields (log entries 1, 2, 3, 5) are not in it. -/
def Obligations.PowerUpLeavesTheResetValues : Prop :=
  State.reset.status = { err := 0#4, matched := false, sticky := false } ∧
  readReg .status State.reset = 0x00000000#32 ∧
  State.reset.pos = 0#32 ∧ State.reset.lim.toNat = State.reset.params.bufCap ∧
  State.reset.data = 0#64 ∧ State.reset.crc = 0#32 ∧ State.reset.expect = 0#32 ∧
  State.reset.aAddr = 0#32 ∧ State.reset.aLen = 0#32 ∧ State.reset.bAddr = 0#32 ∧
  State.reset.bLen = 0#32 ∧ State.reset.spanAddr = 0#32 ∧ (∀ a, State.reset.byteAt a = none)

/-- 70_reset_and_hazards.md R101, R102: the reset event and power-up, each one step between two host
accesses, from any state. Reset keeps every byte of BUF; power-up leaves none defined. That power-up is an
arrival, from any state, is the model's reading (log entry 4, DEDUCED); that the returned values, the
arrivals and the parameters stand over both is the model's choice (log entries 1, 2, 5). -/
def Obligations.ResetEventWritesEveryRegisterAndKeepsBuf : Prop :=
  ∀ (s : State) (x : Arrival) (rest : List Arrival), s.params.wf → (x = .reset ∨ x = .powerUp) →
    s.arrivals = x :: rest →
    ∃ t, step s = .next t ∧
      t.status = { err := 0#4, matched := false, sticky := false } ∧
      t.pos = 0#32 ∧ t.lim.toNat = s.params.bufCap ∧ t.data = 0#64 ∧ t.crc = 0#32 ∧
      t.expect = 0#32 ∧ t.aAddr = 0#32 ∧ t.aLen = 0#32 ∧ t.bAddr = 0#32 ∧ t.bLen = 0#32 ∧
      t.spanAddr = 0#32 ∧ (x = .reset → t.buf = s.buf) ∧ (x = .powerUp → ∀ a, t.byteAt a = none) ∧
      t.params = s.params ∧ t.arrivals = rest ∧ t.returned = s.returned

/-! ## The commands -/

/-- 42_control.md R83: NOP, from any state: ERR and MATCH become 0, STICKY and all else stay; with a
nonzero ARG the word is illegal. -/
def Obligations.NopOnlyClearsErrAndMatch : Prop :=
  ∀ s : State,
    exec .nop s = .next { s with status := { err := 0#4, matched := false, sticky := s.status.sticky } } ∧
    ∀ arg : BitVec 24, performCommand (arg ++ 0x00#8) s =
      if arg = 0#24 then exec .nop s
      else .next { s with status := { err := 4#4, matched := false, sticky := true } }

/-- 40_byte_order.md R60 to R63: PUTw. Where `POS + w ≤ LIM` it completes: byte j of the w bytes from the
old POS is the byte of DATA of weight 256^(w−1−j), every other byte of BUF reads as before, POS has
advanced by w, and no other register but STATUS changed. Else E_OVERFLOW, and STATUS alone changes. -/
def Obligations.PutWritesDataBigEndianAtPos : Prop :=
  ∀ (i : Instr) (w : Nat) (op : BitVec 8),
    (i, w, op) ∈ [(Instr.put8, 1, 0x01#8), (.put16, 2, 0x02#8), (.put32, 4, 0x03#8), (.put64, 8, 0x04#8)] →
    ∀ s : State,
      (s.pos.toNat + w ≤ s.lim.toNat →
        ∃ t, exec i s = .next t ∧
          t = { s with
            buf := t.buf
            pos := t.pos
            status := { err := 0#4, matched := false, sticky := s.status.sticky } } ∧
          t.pos.toNat = s.pos.toNat + w ∧
          (∀ j, j < w → t.byteAt (s.pos.toNat + j) = some (s.data.extractLsb' (8 * (w - 1 - j)) 8)) ∧
          (∀ a, a < s.pos.toNat ∨ s.pos.toNat + w ≤ a → t.byteAt a = s.byteAt a)) ∧
      (s.lim.toNat < s.pos.toNat + w →
        exec i s = .next { s with status := { err := 2#4, matched := false, sticky := true } }) ∧
      (∀ arg : BitVec 24, performCommand (arg ++ op) s =
        if arg = 0#24 then exec i s
        else .next { s with status := { err := 4#4, matched := false, sticky := true } })

/-- 40_byte_order.md R64 to R67: GETw. Where `POS + w ≤ LIM` it completes: DATA holds w bytes read from
the old POS, the first the most significant, zero-extended; a written byte reads as it was written and a
byte never written as any (20_memory.md R45). POS has advanced by w, BUF and every register but DATA, POS
and STATUS are as before. Else E_TRUNC, and STATUS alone changes. -/
def Obligations.GetReadsBigEndianIntoData : Prop :=
  ∀ (i : Instr) (w : Nat) (op : BitVec 8),
    (i, w, op) ∈ [(Instr.get8, 1, 0x05#8), (.get16, 2, 0x06#8), (.get32, 4, 0x07#8), (.get64, 8, 0x08#8)] →
    ∀ s : State,
      (s.pos.toNat + w ≤ s.lim.toNat →
        ∃ (t : State) (bs : List Byte), exec i s = .next t ∧
          bs.length = w ∧ s.mayRead s.pos.toNat bs ∧
          t = { s with
            data := t.data
            pos := t.pos
            status := { err := 0#4, matched := false, sticky := s.status.sticky }
            draws := t.draws } ∧
          t.pos.toNat = s.pos.toNat + w ∧
          (∀ j (h : j < bs.length), t.data.extractLsb' (8 * (w - 1 - j)) 8 = bs[j]) ∧
          t.data.toNat < 256 ^ w ∧
          (s.written s.pos.toNat w → t.draws = s.draws)) ∧
      (s.lim.toNat < s.pos.toNat + w →
        exec i s = .next { s with status := { err := 1#4, matched := false, sticky := true } }) ∧
      (∀ arg : BitVec 24, performCommand (arg ++ op) s =
        if arg = 0#24 then exec i s
        else .next { s with status := { err := 4#4, matched := false, sticky := true } })

/-- 40_byte_order.md R68: PUTSPAN n, with n the unsigned ARG of its word. No byte of BUF changes. -/
def Obligations.PutspanReservesAtTheCursor : Prop :=
  ∀ (n : Nat) (s : State),
    (s.pos.toNat + n ≤ s.lim.toNat →
      ∃ t, exec (.putspan n) s = .next t ∧
        t = { s with
          spanAddr := s.pos
          pos := t.pos
          status := { err := 0#4, matched := false, sticky := s.status.sticky } } ∧
        t.pos.toNat = s.pos.toNat + n) ∧
    (s.lim.toNat < s.pos.toNat + n →
      exec (.putspan n) s = .next { s with status := { err := 2#4, matched := false, sticky := true } }) ∧
    (∀ arg : BitVec 24, performCommand (arg ++ 0x09#8) s = exec (.putspan arg.toNat) s)

/-- 40_byte_order.md R69: GETSPAN n, with n the unsigned ARG of its word. No byte of BUF is read: the
next state does not depend on the draws, and nothing but SPAN_ADDR, POS and STATUS changes. -/
def Obligations.GetspanConsumesAtTheCursor : Prop :=
  ∀ (n : Nat) (s : State),
    (s.pos.toNat + n ≤ s.lim.toNat →
      ∃ t, exec (.getspan n) s = .next t ∧
        t = { s with
          spanAddr := s.pos
          pos := t.pos
          status := { err := 0#4, matched := false, sticky := s.status.sticky } } ∧
        t.pos.toNat = s.pos.toNat + n) ∧
    (s.lim.toNat < s.pos.toNat + n →
      exec (.getspan n) s = .next { s with status := { err := 1#4, matched := false, sticky := true } }) ∧
    (∀ arg : BitVec 24, performCommand (arg ++ 0x0A#8) s = exec (.getspan arg.toNat) s)

/-- 41_checksum.md R77: CRC1. Where span A is valid it completes: CRC holds the checksum, under the
machine's CRC_MODEL, of A_LEN bytes read from A_ADDR, which is `crc32` under the default CRC_MODEL; BUF
and every register but CRC and STATUS are as before. Else E_SPAN, and STATUS alone changes. -/
def Obligations.Crc1ChecksumsSpanA : Prop :=
  ∀ s : State,
    (s.aAddr.toNat + s.aLen.toNat ≤ s.params.bufCap →
      ∃ (t : State) (bs : List Byte), exec .crc1 s = .next t ∧
        bs.length = s.aLen.toNat ∧ s.mayRead s.aAddr.toNat bs ∧
        t = { s with
          crc := checksum s.params.crcModel bs
          status := { err := 0#4, matched := false, sticky := s.status.sticky }
          draws := t.draws } ∧
        (s.params.crcModel = .isoHdlc → t.crc = crc32 bs) ∧
        (s.written s.aAddr.toNat s.aLen.toNat → t.draws = s.draws)) ∧
    (s.params.bufCap < s.aAddr.toNat + s.aLen.toNat →
      exec .crc1 s = .next { s with status := { err := 3#4, matched := false, sticky := true } }) ∧
    (∀ arg : BitVec 24, performCommand (arg ++ 0x10#8) s =
      if arg = 0#24 then exec .crc1 s
      else .next { s with status := { err := 4#4, matched := false, sticky := true } })

/-- 41_checksum.md R78: CRC2, over span A followed by span B. -/
def Obligations.Crc2ChecksumsSpanAThenSpanB : Prop :=
  ∀ s : State,
    (s.aAddr.toNat + s.aLen.toNat ≤ s.params.bufCap → s.bAddr.toNat + s.bLen.toNat ≤ s.params.bufCap →
      ∃ (t : State) (as bs : List Byte), exec .crc2 s = .next t ∧
        as.length = s.aLen.toNat ∧ s.mayRead s.aAddr.toNat as ∧
        bs.length = s.bLen.toNat ∧ s.mayRead s.bAddr.toNat bs ∧
        t = { s with
          crc := checksum s.params.crcModel (as ++ bs)
          status := { err := 0#4, matched := false, sticky := s.status.sticky }
          draws := t.draws } ∧
        (s.params.crcModel = .isoHdlc → t.crc = crc32 (as ++ bs)) ∧
        (s.written s.aAddr.toNat s.aLen.toNat → s.written s.bAddr.toNat s.bLen.toNat →
          t.draws = s.draws)) ∧
    (s.params.bufCap < s.aAddr.toNat + s.aLen.toNat ∨ s.params.bufCap < s.bAddr.toNat + s.bLen.toNat →
      exec .crc2 s = .next { s with status := { err := 3#4, matched := false, sticky := true } }) ∧
    (∀ arg : BitVec 24, performCommand (arg ++ 0x11#8) s =
      if arg = 0#24 then exec .crc2 s
      else .next { s with status := { err := 4#4, matched := false, sticky := true } })

/-- 41_checksum.md R79: VERIFY. CRC is written on a match and on a mismatch, MATCH says which it was, and
a mismatch is no error. -/
def Obligations.VerifyComparesWithExpect : Prop :=
  ∀ s : State,
    (s.aAddr.toNat + s.aLen.toNat ≤ s.params.bufCap →
      ∃ (t : State) (bs : List Byte), exec .verify s = .next t ∧
        bs.length = s.aLen.toNat ∧ s.mayRead s.aAddr.toNat bs ∧
        t = { s with
          crc := checksum s.params.crcModel bs
          status := { err := 0#4, matched := t.status.matched, sticky := s.status.sticky }
          draws := t.draws } ∧
        (t.status.matched = true ↔ t.crc = s.expect) ∧
        (s.params.crcModel = .isoHdlc → t.crc = crc32 bs) ∧
        (s.written s.aAddr.toNat s.aLen.toNat → t.draws = s.draws)) ∧
    (s.params.bufCap < s.aAddr.toNat + s.aLen.toNat →
      exec .verify s = .next { s with status := { err := 3#4, matched := false, sticky := true } }) ∧
    (∀ arg : BitVec 24, performCommand (arg ++ 0x12#8) s =
      if arg = 0#24 then exec .verify s
      else .next { s with status := { err := 4#4, matched := false, sticky := true } })

/-! ## Encoding -/

/-- 30_encoding.md R49, R51: a word whose OP is reserved, or whose ARG is not 0 on any command but the span
commands, completes with E_ILLEGAL and changes nothing else, before any check of a command; every other
word performs the command its OP names. -/
def Obligations.IllegalWordRaisesOnlyEIllegal : Prop :=
  ∀ (w : Word) (s : State),
    ((0x0B ≤ (opField w).toNat ∧ (opField w).toNat ≤ 0x0F) ∨ 0x13 ≤ (opField w).toNat ∨
      (opField w ≠ 0x09#8 ∧ opField w ≠ 0x0A#8 ∧ argField w ≠ 0#24) →
      performCommand w s = .next { s with status := { err := 4#4, matched := false, sticky := true } }) ∧
    (¬ (0x0B ≤ (opField w).toNat ∧ (opField w).toNat ≤ 0x0F) → ¬ 0x13 ≤ (opField w).toNat →
      (opField w = 0x09#8 ∨ opField w = 0x0A#8 ∨ argField w = 0#24) →
      ∃ i : Instr, decode w = .ok i ∧ i.opcode = opField w ∧ performCommand w s = exec i s)

/-- Decode and encode agree: every command a word can spell, with every span length a word can hold. -/
def Obligations.DecodeOfEncodeIsTheCommand : Prop :=
  ∀ i : Instr, i.wellFormed = true → decode (encode i) = .ok i

/-- Encode and decode agree the other way: a legal word has one spelling, so no bit of it is dropped. -/
def Obligations.EncodeOfDecodeIsTheWord : Prop :=
  ∀ (w : Word) (i : Instr), decode w = .ok i → i.wellFormed = true ∧ encode i = w

/-- Words written out from the opcode map of 30_encoding.md R47, one of each family. -/
def Obligations.WordsOfTheOpcodeMapDecode : Prop :=
  decode 0x00000000#32 = .ok .nop ∧ decode 0x00000003#32 = .ok .put32 ∧
  decode 0x00000008#32 = .ok .get64 ∧ decode 0x00000409#32 = .ok (.putspan 4) ∧
  decode 0xFFFFFF0A#32 = .ok (.getspan 0xFFFFFF) ∧ decode 0x00000012#32 = .ok .verify ∧
  decode 0x0000000B#32 = .error .reservedOp ∧ decode 0x00000100#32 = .error .argNonzero

/-! ## The step -/

/-- A host write of `w` to CMD as the next arrival: the step takes it off and performs the command it
spells, or E_ILLEGAL for a word that spells none (10_state.md R16; 30_encoding.md R51). `withFetchWord`
places such an arrival and changes nothing else (log entry 1). -/
def Obligations.StepPerformsTheCommandWord : Prop :=
  (∀ (s : State) (w : Word) (rest : List Arrival) (i : Instr),
    s.arrivals = .access (.write 32 s.params.base w) :: rest → decode w = .ok i →
    step s = exec i { s with arrivals := rest }) ∧
  (∀ (s : State) (w : Word) (rest : List Arrival) (e : DecodeError),
    s.arrivals = .access (.write 32 s.params.base w) :: rest → decode w = .error e →
    step s = .next { s with
      arrivals := rest
      status := { err := 4#4, matched := false, sticky := true } }) ∧
  (∀ (s : State) (nbits w : Nat) (i : Instr), decodeTableWord nbits w = some i →
    step (s.withFetchWord nbits w) = exec i s)

/-- 20_memory.md R41, 60_exceptions.md R100: the step takes the arrivals in their order, one a step, and
with none the block is idle and keeps its state. -/
def Obligations.StepTakesArrivalsInOrder : Prop :=
  (∀ s : State, s.arrivals = [] → step s = .next s) ∧
  (∀ s t : State, step s = .next t → s.arrivals ≠ [] → ∃ x, s.arrivals = x :: t.arrivals)

/-- The invariant of log entry 8 holds after power-up. -/
def Obligations.ResetStateIsLegal : Prop := State.Inv State.reset

/-- Every step keeps the invariant: parameters in bounds, BUF canonical and inside BUF_CAP, LIM ≤ BUF_CAP
(10_state.md R28), ERR at most 4 (60_exceptions.md R90), MATCH only beside ERR = 0. -/
def Obligations.StepKeepsTheStateLegal : Prop :=
  ∀ s t : State, s.Inv → step s = .next t → t.Inv

/-- 60_exceptions.md R88: every command ends within the host write that issued it, by success or by the
failure rule, and the arrivals after it stand; every step answers a next state but for a host access the
map refuses, and no step faults. -/
def Obligations.EveryCommandEndsAndNoStepFaults : Prop :=
  (∀ (w : Word) (s : State), ∃ t, performCommand w s = .next t ∧ t.arrivals = s.arrivals ∧
    ((t.status.err = 0#4 ∧ t.status.sticky = s.status.sticky) ∨
      (t.status.err ≠ 0#4 ∧
        t = { s with status := { err := t.status.err, matched := false, sticky := true } }))) ∧
  (∀ s : State, s.params.wf → (∃ t, step s = .next t) ∨
    ∃ a rest r, s.arrivals = .access a :: rest ∧ ¬ legalAccess s.params a.bits a.addr ∧ step s = .refused r)

/-- The parameters are fixed for the model's whole run (10_state.md R11; log entry 2). -/
def Obligations.StepKeepsTheParameters : Prop :=
  ∀ s t : State, step s = .next t → t.params = s.params

/-! ## What commands may write -/

/-- 30_encoding.md R54: a command that ends with a nonzero ERR left one of the error codes there, 0 in MATCH
and 1 in STICKY, and changed nothing else. -/
def Obligations.FailingCommandChangesOnlyStatus : Prop :=
  ∀ (w : Word) (s t : State), performCommand w s = .next t → t.status.err ≠ 0#4 →
    t.status.err ∈ [1#4, 2#4, 3#4, 4#4] ∧
    t = { s with status := { err := t.status.err, matched := false, sticky := true } }

/-- 30_encoding.md R53: a command that ends with ERR = 0 leaves STICKY, and clears MATCH unless it is a
VERIFY. -/
def Obligations.SuccessKeepsStickyAndClearsMatch : Prop :=
  ∀ (w : Word) (s t : State), performCommand w s = .next t → t.status.err = 0#4 →
    t.status.sticky = s.status.sticky ∧ (decode w ≠ .ok .verify → t.status.matched = false)

/-- 60_exceptions.md R89: the ERR code a command word leaves, with the cause the table gives each code. -/
def Obligations.ErrCodeHasItsCause : Prop :=
  ∀ (w : Word) (s : State), ∃ t, performCommand w s = .next t ∧
    t.status.err.toNat =
      match decode w with
      | .error _ => 4
      | .ok i =>
        match cursorBytes i with
        | some k =>
          if s.pos.toNat + k ≤ s.lim.toNat then 0 else if readsAtCursor i then 1 else 2
        | none =>
          if i = .nop then 0
          else if s.params.bufCap < s.aAddr.toNat + s.aLen.toNat then 3
          else if i = .crc2 ∧ s.params.bufCap < s.bAddr.toNat + s.bLen.toNat then 3
          else 0

/-- 10_state.md R12, R14, R19 to R26: of the commands, only PUTw change BUF, only GETw change DATA, only
CRC1, CRC2 and VERIFY change CRC, only the span commands change SPAN_ADDR, only the cursor commands
change POS, and none changes LIM, EXPECT, A_ADDR, A_LEN, B_ADDR, B_LEN or what lies outside the block. -/
def Obligations.CommandWritesOnlyItsRegisters : Prop :=
  ∀ (i : Instr) (s t : State), exec i s = .next t →
    (t.buf ≠ s.buf → i ∈ [Instr.put8, .put16, .put32, .put64]) ∧
    (t.data ≠ s.data → i ∈ [Instr.get8, .get16, .get32, .get64]) ∧
    (t.crc ≠ s.crc → i ∈ [Instr.crc1, .crc2, .verify]) ∧
    (t.spanAddr ≠ s.spanAddr → ∃ n, i = .putspan n ∨ i = .getspan n) ∧
    (t.pos ≠ s.pos → ∃ k, cursorBytes i = some k) ∧
    (t.status.matched = true → i = .verify) ∧
    t.lim = s.lim ∧ t.expect = s.expect ∧ t.aAddr = s.aAddr ∧ t.aLen = s.aLen ∧
    t.bAddr = s.bAddr ∧ t.bLen = s.bLen ∧ t.params = s.params ∧ t.arrivals = s.arrivals ∧
    t.returned = s.returned

/-- 10_state.md R12: over all steps, BUF changes only at a PUT command, at a host write in the buffer
window, and at power-up, which as an arrival is the model's reading (log entry 4). -/
def Obligations.BufChangesOnlyByPutWindowWriteOrPowerUp : Prop :=
  ∀ s t : State, step s = .next t → t.buf ≠ s.buf →
    ∃ x rest, s.arrivals = x :: rest ∧
      (x = .powerUp ∨
        (∃ j v, j < s.params.bufCap ∧ x = .access (.write 8 (s.params.base + 0x10000 + j) v)) ∨
        (∃ w, x = .access (.write 32 s.params.base w) ∧
          decode w ∈ [Except.ok Instr.put8, .ok .put16, .ok .put32, .ok .put64]))

/-- 10_state.md R12: NOP, the PUT commands and the span commands do not read BUF. Whatever BUF holds, they
leave the same registers; and NOP and the span commands leave BUF as it was. -/
def Obligations.PutAndSpanCommandsDoNotReadBuf : Prop :=
  ∀ (i : Instr) (s : State) (m : Memory),
    (i ∈ [Instr.nop, .put8, .put16, .put32, .put64] ∨ ∃ n, i = .putspan n ∨ i = .getspan n) →
    ∃ t u, exec i s = .next t ∧ exec i { s with buf := m } = .next u ∧ u = { t with buf := u.buf } ∧
      (i ∉ [Instr.put8, .put16, .put32, .put64] → t.buf = s.buf ∧ u.buf = m)

/-! ## The cursor and the byte order -/

/-- 40_byte_order.md R57: the bounds test, for every command that moves or reserves k bytes. -/
def Obligations.BoundsTestGuardsTheCursor : Prop :=
  ∀ (i : Instr) (k : Nat) (s : State), cursorBytes i = some k →
    (s.lim.toNat < s.pos.toNat + k →
      exec i s = .next { s with
        status := { err := if readsAtCursor i then 1#4 else 2#4, matched := false, sticky := true } }) ∧
    (s.pos.toNat + k ≤ s.lim.toNat → ∃ t, exec i s = .next t ∧ t.status.err = 0#4) ∧
    (s.Inv → s.pos.toNat + k ≤ s.lim.toNat → ∀ j, j < k → s.pos.toNat + j < s.params.bufCap)

/-- 40_byte_order.md R59: the cursor's advance, its bound, and the registers a cursor command never
changes. -/
def Obligations.CursorAdvancesByTheExactWidth : Prop :=
  ∀ (i : Instr) (k : Nat) (s : State), cursorBytes i = some k → s.pos.toNat + k ≤ s.lim.toNat →
    ∃ t, exec i s = .next t ∧ t.pos.toNat = s.pos.toNat + k ∧ t.pos.toNat ≤ s.lim.toNat ∧
      (s.Inv → t.pos.toNat ≤ s.params.bufCap ∧ s.params.bufCap ≤ 0x00FF0000) ∧
      t.lim = s.lim ∧ t.crc = s.crc ∧ t.expect = s.expect ∧ t.aAddr = s.aAddr ∧ t.aLen = s.aLen ∧
      t.bAddr = s.bAddr ∧ t.bLen = s.bLen

/-- 40_byte_order.md R58: the byte conversions, most significant byte first, and what decoding an encoded
value gives. -/
def Obligations.DecodeBytesUndoesEncodeBytes : Prop :=
  ∀ (w : Nat) (v : DWord), w ∈ [1, 2, 4, 8] →
    (encodeBytes w v).length = w ∧
    (∀ j (h : j < (encodeBytes w v).length), (encodeBytes w v)[j] = v.extractLsb' (8 * (w - 1 - j)) 8) ∧
    decodeBytes (encodeBytes w v) = (v.extractLsb' 0 (8 * w)).setWidth 64 ∧
    (∀ s : List Byte, s.length = w → (decodeBytes s).toNat = beNat s)

/-- 40_byte_order.md R70: `putW`, then `seek p`, then `getW`, gives back the low w bytes of DATA. -/
def Obligations.PutSeekGetReturnsTheValue : Prop :=
  ∀ (p g : Instr) (w : Nat),
    (p, g, w) ∈ [(Instr.put8, Instr.get8, 1), (.put16, .get16, 2), (.put32, .get32, 4), (.put64, .get64, 8)] →
    ∀ s : State, s.pos.toNat + w ≤ s.lim.toNat →
      ∃ s1 s2 s3, exec p s = .next s1 ∧ writeReg .pos s.pos s1 = .next s2 ∧ exec g s2 = .next s3 ∧
        s3.data = (s.data.extractLsb' 0 (8 * w)).setWidth 64 ∧ s3.pos.toNat = s.pos.toNat + w ∧
        s1.status.err = 0#4 ∧ s3.status.err = 0#4

/-- 20_memory.md R35: a GET16 one byte into the bytes of a PUT32 sees the two bytes that stand there. -/
def Obligations.NarrowGetSeesTheBytesOfAWidePut : Prop :=
  ∀ (s : State) (q : Word), s.pos.toNat + 4 ≤ s.lim.toNat → q.toNat = s.pos.toNat + 1 →
    ∃ s1 s2 s3, exec .put32 s = .next s1 ∧ writeReg .pos q s1 = .next s2 ∧ exec .get16 s2 = .next s3 ∧
      s3.data = (s.data.extractLsb' 8 16).setWidth 64

/-! ## The checksum -/

/-- 41_checksum.md R73: the default CRC_MODEL's parameters and check value, and that the checksum it gives
is the function R72 writes out. -/
def Obligations.DefaultCrcModelIsCrc32 : Prop :=
  CrcModel.isoHdlc = { poly := 0x04C11DB7#32, init := 0xFFFFFFFF#32, refIn := true, refOut := true, xorOut := 0xFFFFFFFF#32 } ∧
  crc32 [0x31#8, 0x32#8, 0x33#8, 0x34#8, 0x35#8, 0x36#8, 0x37#8, 0x38#8, 0x39#8] = 0xCBF43926#32 ∧
  ∀ bs : List Byte, checksum .isoHdlc bs = crc32 bs

/-- 41_checksum.md R74: empty input gives 0 under every CRC_MODEL, and so does CRC1 over an empty span. -/
def Obligations.EmptyInputHasChecksumZero : Prop :=
  crc32 [] = 0x00000000#32 ∧ (∀ M : CrcModel, checksum M [] = 0x00000000#32) ∧
  ∀ s : State, s.aLen = 0#32 → s.aAddr.toNat ≤ s.params.bufCap →
    ∃ t, exec .crc1 s = .next t ∧ t.crc = 0x00000000#32 ∧ t.status.err = 0#4

/-- 41_checksum.md R75: CRC2 with an empty span is CRC1 of the other span, two empty spans give 0, and
the order of two spans matters. It takes no premise that the bytes are written: that CRC2 and CRC1 then
read the same unwritten bytes (equal draws, equal bytes, in index order) is the model's choice
(log entry 3, DESIGN CHOICE); 20_memory.md R45 lets two reads of one differ. -/
def Obligations.Crc2WithAnEmptySpanIsCrc1 : Prop :=
  (∀ s : State, s.bLen = 0#32 → s.bAddr.toNat ≤ s.params.bufCap → exec .crc2 s = exec .crc1 s) ∧
  (∀ s : State, s.aLen = 0#32 → s.aAddr.toNat ≤ s.params.bufCap →
    ∃ t u, exec .crc2 s = .next t ∧ exec .crc1 { s with aAddr := s.bAddr, aLen := s.bLen } = .next u ∧
      t = { u with aAddr := s.aAddr, aLen := s.aLen }) ∧
  (∀ s : State, s.aLen = 0#32 → s.aAddr.toNat ≤ s.params.bufCap → s.bLen = 0#32 →
    s.bAddr.toNat ≤ s.params.bufCap → ∃ t, exec .crc2 s = .next t ∧ t.crc = 0#32) ∧
  (∃ as bs : List Byte, crc32 (as ++ bs) ≠ crc32 (bs ++ as))

/-- 41_checksum.md R78: where span B begins at the end of span A, CRC2 gives what CRC1 gives over the
joined span. Over unwritten bytes that rests on the model's choice of log entry 3 (DESIGN CHOICE: equal
draws read equal bytes, span A before span B, lowest index first); 20_memory.md R45 lets two reads differ. -/
def Obligations.Crc2OfAdjacentSpansIsCrc1OfTheJoinedSpan : Prop :=
  ∀ (s : State) (n : Word), s.bAddr.toNat = s.aAddr.toNat + s.aLen.toNat →
    n.toNat = s.aLen.toNat + s.bLen.toNat → s.aAddr.toNat + n.toNat ≤ s.params.bufCap →
    ∃ t u, exec .crc2 s = .next t ∧ exec .crc1 { s with aLen := n } = .next u ∧
      t = { u with aLen := s.aLen }

/-- 41_checksum.md R80: a change of one bit anywhere changes `crc32`; and a VERIFY against any EXPECT but
the checksum it computes, a trailer with a flipped bit among them, gives MATCH = 0 with ERR = 0. -/
def Obligations.SingleBitFlipChangesCrc32 : Prop :=
  (∀ (pre post : List Byte) (b : Byte) (k : Nat), k < 8 →
    crc32 (pre ++ (b ^^^ (1#8 <<< k)) :: post) ≠ crc32 (pre ++ b :: post)) ∧
  (∀ s : State, s.aAddr.toNat + s.aLen.toNat ≤ s.params.bufCap →
    ∃ t, exec .verify s = .next t ∧ (t.crc ≠ s.expect → t.status.matched = false ∧ t.status.err = 0#4))

/-- 41_checksum.md R72 allows any table-driven implementation that gives the same value: the usual one
does, byte by byte and over every sequence. -/
def Obligations.TableDrivenCrcIsCrc32 : Prop :=
  (∀ (poly c : Word) (b : Byte), crcByteByTable poly c b = crcByte poly c b) ∧
  ∀ bs : List Byte, crc32ByTable bs = crc32 bs

/-- The model's reflected form of every CRC_MODEL equals the catalogue's normal form, most significant bit
first. It rests on the model's reading of the catalogue's terms (log entry 9), not on a rule. -/
def Obligations.ReflectedChecksumIsTheNormalForm : Prop :=
  ∀ (M : CrcModel) (bs : List Byte), checksum M bs = checksumNormal M bs

/-- A VERIFY over written bytes, repeated, changes nothing more (95_test_vectors.md L1-3; 41_checksum.md R79). -/
def Obligations.RepeatedVerifyChangesNothing : Prop :=
  ∀ s : State, s.aAddr.toNat + s.aLen.toNat ≤ s.params.bufCap → s.written s.aAddr.toNat s.aLen.toNat →
    ∃ t, exec .verify s = .next t ∧ exec .verify t = .next t

/-! ## Host accesses -/

/-- 42_control.md R84: the value a host read returns at every register offset; it changes no state of the
block. -/
def Obligations.HostRegisterReadReturnsTheRegister : Prop :=
  ∀ (s : State) (o : Nat), o % 4 = 0 → o < 0x10000 →
    ∃ v : Word,
      takeArrival (.access (.read 32 (s.params.base + o))) s =
        .next { s with returned := .word v :: s.returned } ∧
      (o = 0x00 → v = 0x00000000#32) ∧
      (o = 0x04 → v.toNat = s.status.err.toNat + 16 * s.status.matched.toNat + 32 * s.status.sticky.toNat) ∧
      (o = 0x08 → v = s.pos) ∧ (o = 0x0C → v = s.lim) ∧
      (o = 0x10 → v = s.data.extractLsb' 32 32) ∧ (o = 0x14 → v = s.data.extractLsb' 0 32) ∧
      (o = 0x18 → v = s.crc) ∧ (o = 0x1C → v = s.expect) ∧
      (o = 0x20 → v = s.aAddr) ∧ (o = 0x24 → v = s.aLen) ∧
      (o = 0x28 → v = s.bAddr) ∧ (o = 0x2C → v = s.bLen) ∧
      (o = 0x30 → v = s.spanAddr) ∧ (0x34 ≤ o → v = 0x00000000#32)

/-- 42_control.md R85: what a host write does at every register offset. -/
def Obligations.HostRegisterWriteStoresTheRegister : Prop :=
  ∀ (s : State) (o : Nat) (v : Word) (r : Result), o % 4 = 0 → o < 0x10000 →
    r = takeArrival (.access (.write 32 (s.params.base + o) v)) s →
      (o = 0x00 → r = performCommand v s) ∧
      (o = 0x04 → r = .next { s with
        status := { s.status with sticky := s.status.sticky && !v.getLsbD 5 } }) ∧
      (o = 0x08 → r = .next { s with pos := v }) ∧
      (o = 0x0C → ∃ l : Word, l.toNat = min v.toNat s.params.bufCap ∧ r = .next { s with lim := l }) ∧
      (o = 0x10 → ∃ d : DWord, d.extractLsb' 32 32 = v ∧ d.extractLsb' 0 32 = s.data.extractLsb' 0 32 ∧
        r = .next { s with data := d }) ∧
      (o = 0x14 → ∃ d : DWord, d.extractLsb' 0 32 = v ∧ d.extractLsb' 32 32 = s.data.extractLsb' 32 32 ∧
        r = .next { s with data := d }) ∧
      (o = 0x18 → r = .next s) ∧ (o = 0x1C → r = .next { s with expect := v }) ∧
      (o = 0x20 → r = .next { s with aAddr := v }) ∧ (o = 0x24 → r = .next { s with aLen := v }) ∧
      (o = 0x28 → r = .next { s with bAddr := v }) ∧ (o = 0x2C → r = .next { s with bLen := v }) ∧
      (0x30 ≤ o → r = .next s)

/-- 42_control.md R86: a host read of a window byte returns the byte written; of a byte never written, some
byte. It ignores POS and LIM, and changes no state of the block. -/
def Obligations.WindowReadReturnsTheByte : Prop :=
  ∀ (s : State) (i : Nat), s.params.wf → i < s.params.bufCap →
    ∃ (t : State) (b : Byte),
      takeArrival (.access (.read 8 (s.params.base + 0x10000 + i))) s = .next t ∧
      t = { s with returned := .byte b :: s.returned, draws := t.draws } ∧
      ∀ b', s.byteAt i = some b' → b = b' ∧ t.draws = s.draws

/-- 42_control.md R87: a host write of a window byte stores it, whatever POS and LIM are, and changes no
other byte and no register. That the byte written is bits 7:0 of the access's value is the model's choice
(log entry 7, DESIGN CHOICE): 20_memory.md R34 leaves byte lanes to the platform. -/
def Obligations.WindowWriteStoresTheByte : Prop :=
  ∀ (s : State) (i : Nat) (v : Word), s.params.wf → i < s.params.bufCap →
    ∃ t, takeArrival (.access (.write 8 (s.params.base + 0x10000 + i) v)) s = .next t ∧
      t = { s with buf := t.buf } ∧ t.byteAt i = some (v.extractLsb' 0 8) ∧
      ∀ a, a ≠ i → t.byteAt a = s.byteAt a

/-- 20_memory.md R32, R37: a host access is refused exactly where it is neither a 32-bit one at a multiple
of 4 in the register region nor an 8-bit one in the buffer window. That an access outside the 16 MiB
region is refused is the model's reading (log entry 6). -/
def Obligations.AccessRefusedExactlyWhereTheMapSaysSo : Prop :=
  ∀ (s : State) (a : Access), s.params.wf →
    ((∃ r, takeArrival (.access a) s = .refused r) ↔ ¬ legalAccess s.params a.bits a.addr)

/-- 20_memory.md R39: a host read changes nothing of the block's state, and a read of a register or of a
written byte, repeated, returns the same value. -/
def Obligations.HostReadHasNoSideEffect : Prop :=
  ∀ (s t : State) (bits addr : Nat), takeArrival (.access (.read bits addr)) s = .next t →
    t = { s with returned := t.returned, draws := t.draws } ∧
    ((∀ i, addr = s.params.base + 0x10000 + i → ∃ b, s.byteAt i = some b) →
      ∃ (v : Returned) (u : State), t.returned = v :: s.returned ∧
        takeArrival (.access (.read bits addr)) t = .next u ∧ u.returned = v :: v :: s.returned)

/-! ## The client's notation -/

/-- 30_encoding.md R56: `putcrc` puts CRC at the cursor as four big-endian bytes, and loses DATA. The
host is alone, with no other access between its operations: the model's choice (log entry 14). -/
def Obligations.PutcrcAppendsTheChecksum : Prop :=
  ∀ (h : HostSystem) (x : Nat), h.block.pos.toNat + 4 ≤ h.block.lim.toNat →
    ∃ h', issueAll (expand (.putcrc x)) h = .next h' ∧
      (∀ j, j < 4 → h'.block.byteAt (h.block.pos.toNat + j) =
        some (h.block.crc.extractLsb' (8 * (3 - j)) 8)) ∧
      h'.block.pos.toNat = h.block.pos.toNat + 4 ∧ h'.block.data = h.block.crc.setWidth 64 ∧
      h'.block.crc = h.block.crc ∧ h'.block.status.err = 0#4
end

