-- ==== Sys2Proof/Laws/Bytes.lean ====
section
/-! SUPPORT. The byte conversions of spec/00_scope.md R8 and spec/40_byte_order.md R58. -/

namespace Sys2Proof.Machine

@[simp] theorem bytesBE_length (v n : Nat) : (bytesBE v n).length = n := by
  induction n with
  | zero => rfl
  | succ n ih => simp [bytesBE, ih]

/-- Byte j of `bytes_be(v, n)` is the one of weight 256^(n−1−j). -/
theorem bytesBE_get {v n j : Nat} (h : j < (bytesBE v n).length) :
    (bytesBE v n)[j] = BitVec.ofNat 8 (v / 256 ^ (n - 1 - j)) := by
  induction n generalizing j with
  | zero => simp [bytesBE] at h
  | succ n ih =>
    cases j with
    | zero => simp [bytesBE]
    | succ j =>
      have hj : j < (bytesBE v n).length := by simpa [bytesBE] using h
      simp [bytesBE, ih hj, Nat.sub_sub, Nat.add_comm]

theorem beNat_lt (bs : List Byte) : beNat bs < 256 ^ bs.length := by
  induction bs with
  | nil => simp [beNat]
  | cons b bs ih =>
    have hb := b.isLt
    have : b.toNat * 256 ^ bs.length + 256 ^ bs.length ≤ 256 * 256 ^ bs.length := by
      rw [← Nat.succ_mul]
      exact Nat.mul_le_mul_right _ (by omega)
    simp only [beNat, List.length_cons, Nat.pow_succ]
    omega

/-- `be` undoes `bytes_be` up to 256^n. -/
theorem beNat_bytesBE (v n : Nat) : beNat (bytesBE v n) = v % 256 ^ n := by
  induction n with
  | zero => simp [beNat, bytesBE, Nat.mod_one]
  | succ n ih =>
    simp only [bytesBE, beNat, bytesBE_length, ih, BitVec.toNat_ofNat]
    rw [show (2 : Nat) ^ 8 = 256 from rfl, Nat.pow_succ, Nat.mod_mul, Nat.mul_comm, Nat.add_comm]

/-- Byte j of a sequence, as a digit of its number. -/
theorem beNat_digit {bs : List Byte} {j : Nat} (h : j < bs.length) :
    beNat bs / 256 ^ (bs.length - 1 - j) % 256 = bs[j].toNat := by
  induction bs generalizing j with
  | nil => simp at h
  | cons b bs ih =>
    have hlt := beNat_lt bs
    have hpos : 0 < 256 ^ bs.length := Nat.pow_pos (by decide)
    cases j with
    | zero =>
      simp only [beNat, List.length_cons, Nat.add_sub_cancel, Nat.sub_zero, List.getElem_cons_zero]
      rw [Nat.add_comm, Nat.add_mul_div_right _ _ hpos, Nat.div_eq_of_lt hlt, Nat.zero_add]
      exact Nat.mod_eq_of_lt b.isLt
    | succ j =>
      have hj : j < bs.length := by simpa using h
      have hk : bs.length + 1 - 1 - (j + 1) = bs.length - 1 - j := by omega
      obtain ⟨d, hd⟩ : ∃ d, bs.length = (bs.length - 1 - j) + 1 + d := ⟨j, by omega⟩
      have hp : b.toNat * 256 ^ bs.length =
          (b.toNat * 256 ^ d * 256) * 256 ^ (bs.length - 1 - j) := by
        conv_lhs => rw [hd]
        rw [Nat.pow_add, Nat.pow_succ]
        ring
      simp only [beNat, List.length_cons, hk, List.getElem_cons_succ]
      rw [hp, Nat.add_comm, Nat.add_mul_div_right _ _ (Nat.pow_pos (by decide)), Nat.add_mul_mod_self_right]
      exact ih hj

@[simp] theorem encodeBytes_length (w : Nat) (v : DWord) : (encodeBytes w v).length = w :=
  bytesBE_length _ _

/-- `decode_w` of at most 8 bytes loses nothing. -/
theorem decodeBytes_toNat {bs : List Byte} (h : bs.length ≤ 8) : (decodeBytes bs).toNat = beNat bs := by
  have h1 := beNat_lt bs
  have h2 : 256 ^ bs.length ≤ 256 ^ 8 := Nat.pow_le_pow_right (by decide) h
  simp only [decodeBytes, BitVec.toNat_ofNat]
  exact Nat.mod_eq_of_lt (by omega)

end Sys2Proof.Machine
end

