-- ==== Sys2Proof/Laws/Memory.lean ====
section
/-! SUPPORT. The laws of BUF's contents: read after write, and the canonical form. -/

namespace Sys2Proof.Machine

@[simp] theorem Memory.lookup_nil (a : Nat) : Memory.lookup a [] = none := rfl

@[simp] theorem Memory.lookup_insert_same (a : Nat) (b : Byte) (m : Memory) :
    Memory.lookup a (Memory.insert a b m) = some b := by
  induction m with
  | nil => simp [Memory.insert, Memory.lookup]
  | cons c m ih =>
    obtain ⟨k, v⟩ := c
    simp only [Memory.insert]
    split
    · simp [Memory.lookup]
    · split
      · simp [Memory.lookup]
      · rename_i h
        simp [Memory.lookup, Ne.symm h, ih]

@[simp] theorem Memory.lookup_insert_other {a x : Nat} (h : x ≠ a) (b : Byte) (m : Memory) :
    Memory.lookup x (Memory.insert a b m) = Memory.lookup x m := by
  induction m with
  | nil => simp [Memory.insert, Memory.lookup, Ne.symm h]
  | cons c m ih =>
    obtain ⟨k, v⟩ := c
    simp only [Memory.insert]
    split
    · simp [Memory.lookup, Ne.symm h]
    · split
      · rename_i hk
        subst hk
        simp [Memory.lookup, Ne.symm h]
      · simp [Memory.lookup, ih]

/-- Every index of an insertion is the one inserted or one that was there. -/
theorem Memory.mem_insert {a : Nat} {b : Byte} {m : Memory} {c : Host.Cell}
    (h : c ∈ Memory.insert a b m) : c = (a, b) ∨ c ∈ m := by
  induction m with
  | nil => exact .inl (by simpa [Memory.insert] using h)
  | cons d m ih =>
    obtain ⟨k, v⟩ := d
    simp only [Memory.insert] at h
    split at h
    · simpa using h
    · split at h
      · rcases List.mem_cons.1 h with h | h
        · exact .inl h
        · exact .inr (List.mem_cons_of_mem _ h)
      · rcases List.mem_cons.1 h with h | h
        · exact .inr (by simp [h])
        · exact (ih h).imp_right (List.mem_cons_of_mem _)

theorem Memory.insert_wf {m : Memory} (hm : Memory.wf m) (a : Nat) (b : Byte) :
    Memory.wf (Memory.insert a b m) := by
  induction m with
  | nil => simp [Memory.insert, Memory.wf]
  | cons c m ih =>
    obtain ⟨k, v⟩ := c
    obtain ⟨hk, ht⟩ := List.pairwise_cons.1 hm
    simp only [Memory.insert]
    split
    · rename_i hlt
      refine List.pairwise_cons.2 ⟨fun c hc => ?_, List.pairwise_cons.2 ⟨hk, ht⟩⟩
      rcases List.mem_cons.1 hc with rfl | hc
      · exact hlt
      · exact Nat.lt_trans hlt (hk c hc)
    · split
      · rename_i he
        subst he
        exact List.pairwise_cons.2 ⟨hk, ht⟩
      · rename_i hlt hne
        refine List.pairwise_cons.2 ⟨fun c hc => ?_, ih ht⟩
        rcases Memory.mem_insert hc with rfl | hc
        · change k < a; omega
        · exact hk c hc

theorem Memory.insertAll_wf {m : Memory} (hm : Memory.wf m) (a : Nat) (bs : List Byte) :
    Memory.wf (Memory.insertAll a bs m) := by
  induction bs generalizing a m with
  | nil => exact hm
  | cons b bs ih => exact ih (Memory.insert_wf hm a b) (a + 1)

/-- Where the indices of an insertion lie. -/
theorem Memory.mem_insertAll {a : Nat} {bs : List Byte} {m : Memory} {c : Host.Cell}
    (h : c ∈ Memory.insertAll a bs m) : (a ≤ c.1 ∧ c.1 < a + bs.length) ∨ c ∈ m := by
  induction bs generalizing a m with
  | nil => exact .inr h
  | cons b bs ih =>
    rcases ih h with h | h
    · exact .inl ⟨by omega, by simp only [List.length_cons]; omega⟩
    · rcases Memory.mem_insert h with rfl | h
      · exact .inl ⟨Nat.le_refl _, by simp⟩
      · exact .inr h

theorem Memory.lookup_insertAll_outside {a x : Nat} {bs : List Byte}
    (h : x < a ∨ a + bs.length ≤ x) (m : Memory) :
    Memory.lookup x (Memory.insertAll a bs m) = Memory.lookup x m := by
  induction bs generalizing a m with
  | nil => rfl
  | cons b bs ih =>
    simp only [List.length_cons] at h
    simp only [Memory.insertAll]
    rw [ih (by omega), Memory.lookup_insert_other (by omega)]

theorem Memory.lookup_insertAll_inside {a j : Nat} {bs : List Byte} (h : j < bs.length) (m : Memory) :
    Memory.lookup (a + j) (Memory.insertAll a bs m) = some bs[j] := by
  induction bs generalizing a j m with
  | nil => simp at h
  | cons b bs ih =>
    cases j with
    | zero =>
      rw [Memory.insertAll, Memory.lookup_insertAll_outside (by omega)]
      simp
    | succ j =>
      have hj : j < bs.length := by simpa using h
      have := ih (a := a + 1) hj (Memory.insert a b m)
      simpa [Memory.insertAll, Nat.add_assoc, Nat.add_comm 1 j] using this

end Sys2Proof.Machine
end

