-- ==== Sys2Proof/Laws/State.lean ====
section
/-! SUPPORT. What each update of one register leaves in every field, so that no later proof unfolds an
update. Each lemma is a conjunction with one part a field; simp uses every part. -/

namespace Sys2Proof.Machine

variable (s : State)

@[simp] theorem State.setBuf_fields (m : Memory) :
    (s.setBuf m).buf = m ∧ (s.setBuf m).status = s.status ∧
    (s.setBuf m).pos = s.pos ∧ (s.setBuf m).lim = s.lim ∧
    (s.setBuf m).data = s.data ∧ (s.setBuf m).crc = s.crc ∧
    (s.setBuf m).expect = s.expect ∧ (s.setBuf m).aAddr = s.aAddr ∧
    (s.setBuf m).aLen = s.aLen ∧ (s.setBuf m).bAddr = s.bAddr ∧
    (s.setBuf m).bLen = s.bLen ∧ (s.setBuf m).spanAddr = s.spanAddr ∧
    (s.setBuf m).params = s.params ∧ (s.setBuf m).draws = s.draws ∧
    (s.setBuf m).arrivals = s.arrivals ∧ (s.setBuf m).returned = s.returned := by
  refine ⟨?_, ?_, ?_, ?_, ?_, ?_, ?_, ?_, ?_, ?_, ?_, ?_, ?_, ?_, ?_, ?_⟩ <;> rfl

@[simp] theorem State.setStatus_fields (st : Status) :
    (s.setStatus st).buf = s.buf ∧ (s.setStatus st).status = st ∧
    (s.setStatus st).pos = s.pos ∧ (s.setStatus st).lim = s.lim ∧
    (s.setStatus st).data = s.data ∧ (s.setStatus st).crc = s.crc ∧
    (s.setStatus st).expect = s.expect ∧ (s.setStatus st).aAddr = s.aAddr ∧
    (s.setStatus st).aLen = s.aLen ∧ (s.setStatus st).bAddr = s.bAddr ∧
    (s.setStatus st).bLen = s.bLen ∧ (s.setStatus st).spanAddr = s.spanAddr ∧
    (s.setStatus st).params = s.params ∧ (s.setStatus st).draws = s.draws ∧
    (s.setStatus st).arrivals = s.arrivals ∧ (s.setStatus st).returned = s.returned := by
  refine ⟨?_, ?_, ?_, ?_, ?_, ?_, ?_, ?_, ?_, ?_, ?_, ?_, ?_, ?_, ?_, ?_⟩ <;> rfl

@[simp] theorem State.setPos_fields (v : Word) :
    (s.setPos v).buf = s.buf ∧ (s.setPos v).status = s.status ∧
    (s.setPos v).pos = v ∧ (s.setPos v).lim = s.lim ∧
    (s.setPos v).data = s.data ∧ (s.setPos v).crc = s.crc ∧
    (s.setPos v).expect = s.expect ∧ (s.setPos v).aAddr = s.aAddr ∧
    (s.setPos v).aLen = s.aLen ∧ (s.setPos v).bAddr = s.bAddr ∧
    (s.setPos v).bLen = s.bLen ∧ (s.setPos v).spanAddr = s.spanAddr ∧
    (s.setPos v).params = s.params ∧ (s.setPos v).draws = s.draws ∧
    (s.setPos v).arrivals = s.arrivals ∧ (s.setPos v).returned = s.returned := by
  refine ⟨?_, ?_, ?_, ?_, ?_, ?_, ?_, ?_, ?_, ?_, ?_, ?_, ?_, ?_, ?_, ?_⟩ <;> rfl

@[simp] theorem State.setLim_fields (v : Word) :
    (s.setLim v).buf = s.buf ∧ (s.setLim v).status = s.status ∧
    (s.setLim v).pos = s.pos ∧ (s.setLim v).lim = v ∧
    (s.setLim v).data = s.data ∧ (s.setLim v).crc = s.crc ∧
    (s.setLim v).expect = s.expect ∧ (s.setLim v).aAddr = s.aAddr ∧
    (s.setLim v).aLen = s.aLen ∧ (s.setLim v).bAddr = s.bAddr ∧
    (s.setLim v).bLen = s.bLen ∧ (s.setLim v).spanAddr = s.spanAddr ∧
    (s.setLim v).params = s.params ∧ (s.setLim v).draws = s.draws ∧
    (s.setLim v).arrivals = s.arrivals ∧ (s.setLim v).returned = s.returned := by
  refine ⟨?_, ?_, ?_, ?_, ?_, ?_, ?_, ?_, ?_, ?_, ?_, ?_, ?_, ?_, ?_, ?_⟩ <;> rfl

@[simp] theorem State.setData_fields (v : DWord) :
    (s.setData v).buf = s.buf ∧ (s.setData v).status = s.status ∧
    (s.setData v).pos = s.pos ∧ (s.setData v).lim = s.lim ∧
    (s.setData v).data = v ∧ (s.setData v).crc = s.crc ∧
    (s.setData v).expect = s.expect ∧ (s.setData v).aAddr = s.aAddr ∧
    (s.setData v).aLen = s.aLen ∧ (s.setData v).bAddr = s.bAddr ∧
    (s.setData v).bLen = s.bLen ∧ (s.setData v).spanAddr = s.spanAddr ∧
    (s.setData v).params = s.params ∧ (s.setData v).draws = s.draws ∧
    (s.setData v).arrivals = s.arrivals ∧ (s.setData v).returned = s.returned := by
  refine ⟨?_, ?_, ?_, ?_, ?_, ?_, ?_, ?_, ?_, ?_, ?_, ?_, ?_, ?_, ?_, ?_⟩ <;> rfl

@[simp] theorem State.setCrc_fields (v : Word) :
    (s.setCrc v).buf = s.buf ∧ (s.setCrc v).status = s.status ∧
    (s.setCrc v).pos = s.pos ∧ (s.setCrc v).lim = s.lim ∧
    (s.setCrc v).data = s.data ∧ (s.setCrc v).crc = v ∧
    (s.setCrc v).expect = s.expect ∧ (s.setCrc v).aAddr = s.aAddr ∧
    (s.setCrc v).aLen = s.aLen ∧ (s.setCrc v).bAddr = s.bAddr ∧
    (s.setCrc v).bLen = s.bLen ∧ (s.setCrc v).spanAddr = s.spanAddr ∧
    (s.setCrc v).params = s.params ∧ (s.setCrc v).draws = s.draws ∧
    (s.setCrc v).arrivals = s.arrivals ∧ (s.setCrc v).returned = s.returned := by
  refine ⟨?_, ?_, ?_, ?_, ?_, ?_, ?_, ?_, ?_, ?_, ?_, ?_, ?_, ?_, ?_, ?_⟩ <;> rfl

@[simp] theorem State.setExpect_fields (v : Word) :
    (s.setExpect v).buf = s.buf ∧ (s.setExpect v).status = s.status ∧
    (s.setExpect v).pos = s.pos ∧ (s.setExpect v).lim = s.lim ∧
    (s.setExpect v).data = s.data ∧ (s.setExpect v).crc = s.crc ∧
    (s.setExpect v).expect = v ∧ (s.setExpect v).aAddr = s.aAddr ∧
    (s.setExpect v).aLen = s.aLen ∧ (s.setExpect v).bAddr = s.bAddr ∧
    (s.setExpect v).bLen = s.bLen ∧ (s.setExpect v).spanAddr = s.spanAddr ∧
    (s.setExpect v).params = s.params ∧ (s.setExpect v).draws = s.draws ∧
    (s.setExpect v).arrivals = s.arrivals ∧ (s.setExpect v).returned = s.returned := by
  refine ⟨?_, ?_, ?_, ?_, ?_, ?_, ?_, ?_, ?_, ?_, ?_, ?_, ?_, ?_, ?_, ?_⟩ <;> rfl

@[simp] theorem State.setAAddr_fields (v : Word) :
    (s.setAAddr v).buf = s.buf ∧ (s.setAAddr v).status = s.status ∧
    (s.setAAddr v).pos = s.pos ∧ (s.setAAddr v).lim = s.lim ∧
    (s.setAAddr v).data = s.data ∧ (s.setAAddr v).crc = s.crc ∧
    (s.setAAddr v).expect = s.expect ∧ (s.setAAddr v).aAddr = v ∧
    (s.setAAddr v).aLen = s.aLen ∧ (s.setAAddr v).bAddr = s.bAddr ∧
    (s.setAAddr v).bLen = s.bLen ∧ (s.setAAddr v).spanAddr = s.spanAddr ∧
    (s.setAAddr v).params = s.params ∧ (s.setAAddr v).draws = s.draws ∧
    (s.setAAddr v).arrivals = s.arrivals ∧ (s.setAAddr v).returned = s.returned := by
  refine ⟨?_, ?_, ?_, ?_, ?_, ?_, ?_, ?_, ?_, ?_, ?_, ?_, ?_, ?_, ?_, ?_⟩ <;> rfl

@[simp] theorem State.setALen_fields (v : Word) :
    (s.setALen v).buf = s.buf ∧ (s.setALen v).status = s.status ∧
    (s.setALen v).pos = s.pos ∧ (s.setALen v).lim = s.lim ∧
    (s.setALen v).data = s.data ∧ (s.setALen v).crc = s.crc ∧
    (s.setALen v).expect = s.expect ∧ (s.setALen v).aAddr = s.aAddr ∧
    (s.setALen v).aLen = v ∧ (s.setALen v).bAddr = s.bAddr ∧
    (s.setALen v).bLen = s.bLen ∧ (s.setALen v).spanAddr = s.spanAddr ∧
    (s.setALen v).params = s.params ∧ (s.setALen v).draws = s.draws ∧
    (s.setALen v).arrivals = s.arrivals ∧ (s.setALen v).returned = s.returned := by
  refine ⟨?_, ?_, ?_, ?_, ?_, ?_, ?_, ?_, ?_, ?_, ?_, ?_, ?_, ?_, ?_, ?_⟩ <;> rfl

@[simp] theorem State.setBAddr_fields (v : Word) :
    (s.setBAddr v).buf = s.buf ∧ (s.setBAddr v).status = s.status ∧
    (s.setBAddr v).pos = s.pos ∧ (s.setBAddr v).lim = s.lim ∧
    (s.setBAddr v).data = s.data ∧ (s.setBAddr v).crc = s.crc ∧
    (s.setBAddr v).expect = s.expect ∧ (s.setBAddr v).aAddr = s.aAddr ∧
    (s.setBAddr v).aLen = s.aLen ∧ (s.setBAddr v).bAddr = v ∧
    (s.setBAddr v).bLen = s.bLen ∧ (s.setBAddr v).spanAddr = s.spanAddr ∧
    (s.setBAddr v).params = s.params ∧ (s.setBAddr v).draws = s.draws ∧
    (s.setBAddr v).arrivals = s.arrivals ∧ (s.setBAddr v).returned = s.returned := by
  refine ⟨?_, ?_, ?_, ?_, ?_, ?_, ?_, ?_, ?_, ?_, ?_, ?_, ?_, ?_, ?_, ?_⟩ <;> rfl

@[simp] theorem State.setBLen_fields (v : Word) :
    (s.setBLen v).buf = s.buf ∧ (s.setBLen v).status = s.status ∧
    (s.setBLen v).pos = s.pos ∧ (s.setBLen v).lim = s.lim ∧
    (s.setBLen v).data = s.data ∧ (s.setBLen v).crc = s.crc ∧
    (s.setBLen v).expect = s.expect ∧ (s.setBLen v).aAddr = s.aAddr ∧
    (s.setBLen v).aLen = s.aLen ∧ (s.setBLen v).bAddr = s.bAddr ∧
    (s.setBLen v).bLen = v ∧ (s.setBLen v).spanAddr = s.spanAddr ∧
    (s.setBLen v).params = s.params ∧ (s.setBLen v).draws = s.draws ∧
    (s.setBLen v).arrivals = s.arrivals ∧ (s.setBLen v).returned = s.returned := by
  refine ⟨?_, ?_, ?_, ?_, ?_, ?_, ?_, ?_, ?_, ?_, ?_, ?_, ?_, ?_, ?_, ?_⟩ <;> rfl

@[simp] theorem State.setSpanAddr_fields (v : Word) :
    (s.setSpanAddr v).buf = s.buf ∧ (s.setSpanAddr v).status = s.status ∧
    (s.setSpanAddr v).pos = s.pos ∧ (s.setSpanAddr v).lim = s.lim ∧
    (s.setSpanAddr v).data = s.data ∧ (s.setSpanAddr v).crc = s.crc ∧
    (s.setSpanAddr v).expect = s.expect ∧ (s.setSpanAddr v).aAddr = s.aAddr ∧
    (s.setSpanAddr v).aLen = s.aLen ∧ (s.setSpanAddr v).bAddr = s.bAddr ∧
    (s.setSpanAddr v).bLen = s.bLen ∧ (s.setSpanAddr v).spanAddr = v ∧
    (s.setSpanAddr v).params = s.params ∧ (s.setSpanAddr v).draws = s.draws ∧
    (s.setSpanAddr v).arrivals = s.arrivals ∧ (s.setSpanAddr v).returned = s.returned := by
  refine ⟨?_, ?_, ?_, ?_, ?_, ?_, ?_, ?_, ?_, ?_, ?_, ?_, ?_, ?_, ?_, ?_⟩ <;> rfl

@[simp] theorem State.setDraws_fields (k : Nat) :
    (s.setDraws k).buf = s.buf ∧ (s.setDraws k).status = s.status ∧
    (s.setDraws k).pos = s.pos ∧ (s.setDraws k).lim = s.lim ∧
    (s.setDraws k).data = s.data ∧ (s.setDraws k).crc = s.crc ∧
    (s.setDraws k).expect = s.expect ∧ (s.setDraws k).aAddr = s.aAddr ∧
    (s.setDraws k).aLen = s.aLen ∧ (s.setDraws k).bAddr = s.bAddr ∧
    (s.setDraws k).bLen = s.bLen ∧ (s.setDraws k).spanAddr = s.spanAddr ∧
    (s.setDraws k).params = s.params ∧ (s.setDraws k).draws = k ∧
    (s.setDraws k).arrivals = s.arrivals ∧ (s.setDraws k).returned = s.returned := by
  refine ⟨?_, ?_, ?_, ?_, ?_, ?_, ?_, ?_, ?_, ?_, ?_, ?_, ?_, ?_, ?_, ?_⟩ <;> rfl

@[simp] theorem State.setArrivals_fields (l : List Arrival) :
    (s.setArrivals l).buf = s.buf ∧ (s.setArrivals l).status = s.status ∧
    (s.setArrivals l).pos = s.pos ∧ (s.setArrivals l).lim = s.lim ∧
    (s.setArrivals l).data = s.data ∧ (s.setArrivals l).crc = s.crc ∧
    (s.setArrivals l).expect = s.expect ∧ (s.setArrivals l).aAddr = s.aAddr ∧
    (s.setArrivals l).aLen = s.aLen ∧ (s.setArrivals l).bAddr = s.bAddr ∧
    (s.setArrivals l).bLen = s.bLen ∧ (s.setArrivals l).spanAddr = s.spanAddr ∧
    (s.setArrivals l).params = s.params ∧ (s.setArrivals l).draws = s.draws ∧
    (s.setArrivals l).arrivals = l ∧ (s.setArrivals l).returned = s.returned := by
  refine ⟨?_, ?_, ?_, ?_, ?_, ?_, ?_, ?_, ?_, ?_, ?_, ?_, ?_, ?_, ?_, ?_⟩ <;> rfl

@[simp] theorem State.pushReturned_fields (r : Returned) :
    (s.pushReturned r).buf = s.buf ∧ (s.pushReturned r).status = s.status ∧
    (s.pushReturned r).pos = s.pos ∧ (s.pushReturned r).lim = s.lim ∧
    (s.pushReturned r).data = s.data ∧ (s.pushReturned r).crc = s.crc ∧
    (s.pushReturned r).expect = s.expect ∧ (s.pushReturned r).aAddr = s.aAddr ∧
    (s.pushReturned r).aLen = s.aLen ∧ (s.pushReturned r).bAddr = s.bAddr ∧
    (s.pushReturned r).bLen = s.bLen ∧ (s.pushReturned r).spanAddr = s.spanAddr ∧
    (s.pushReturned r).params = s.params ∧ (s.pushReturned r).draws = s.draws ∧
    (s.pushReturned r).arrivals = s.arrivals ∧ (s.pushReturned r).returned = r :: s.returned := by
  refine ⟨?_, ?_, ?_, ?_, ?_, ?_, ?_, ?_, ?_, ?_, ?_, ?_, ?_, ?_, ?_, ?_⟩ <;> rfl

/-- Putting back what a field already holds changes nothing. -/
@[simp] theorem State.setDraws_self : s.setDraws s.draws = s := rfl

@[simp] theorem State.setDraws_setDraws (j k : Nat) : (s.setDraws j).setDraws k = s.setDraws k := rfl

end Sys2Proof.Machine
end

