-- ==== Sys2Proof/Laws/Ops.lean ====
section
/-! SUPPORT. One lemma for each shared operation, saying all it can do. -/

namespace Sys2Proof.Machine

theorem fits_iff {k : Nat} {s : State} : fits k s = true ↔ s.pos.toNat + k ≤ s.lim.toNat := by
  simp [fits]

theorem spanOk_iff {a n : Word} {s : State} :
    spanOk a n s = true ↔ a.toNat + n.toNat ≤ s.params.bufCap := by
  simp [spanOk]

/-- A cursor that fits below LIM fits in its 32 bits (40_byte_order.md R59). -/
theorem advance_toNat {k : Nat} {s : State} (h : s.pos.toNat + k ≤ s.lim.toNat) :
    (advance k s).pos.toNat = s.pos.toNat + k := by
  have := s.lim.isLt
  simp only [advance, State.setPos_fields, BitVec.toNat_ofNat]
  exact Nat.mod_eq_of_lt (by omega)

/-- A read of one byte: the written byte with nothing changed, or a free value and one draw more. -/
theorem readByte_cases (a : Nat) (s : State) :
    (∃ b, s.byteAt a = some b ∧ readByte a s = (b, s)) ∨
    (s.byteAt a = none ∧ readByte a s = (Config.unwrittenByte s.draws, s.setDraws (s.draws + 1))) := by
  unfold readByte State.byteAt
  cases h : Memory.lookup a s.buf with
  | some b => exact .inl ⟨b, rfl, rfl⟩
  | none => exact .inr ⟨rfl, rfl⟩

@[simp] theorem memRead_length (a n : Nat) (s : State) : (memRead a n s).1.length = n := by
  induction n generalizing a s with
  | zero => rfl
  | succ n ih => simp [memRead, ih]

/-- A read of BUF changes no field but the count of draws. -/
theorem memRead_state (a n : Nat) (s : State) : ∃ k, (memRead a n s).2 = s.setDraws k := by
  induction n generalizing a s with
  | zero => exact ⟨s.draws, rfl⟩
  | succ n ih =>
    obtain ⟨k, hk⟩ := ih (a + 1) (readByte a s).2
    rcases readByte_cases a s with ⟨b, -, hb⟩ | ⟨-, hb⟩
    · exact ⟨k, by rw [memRead, hk, hb]⟩
    · exact ⟨k, by rw [memRead, hk, hb]; rfl⟩

/-- The bytes a read gives are a possible reading of BUF. -/
theorem memRead_mayRead (a n : Nat) (s : State) : s.mayRead a (memRead a n s).1 := by
  induction n generalizing a s with
  | zero => intro i h; simp [memRead] at h
  | succ n ih =>
    intro i h b hb
    cases i with
    | zero =>
      rcases readByte_cases a s with ⟨b', hb', hr⟩ | ⟨hn, -⟩
      · simp only [Nat.add_zero] at hb
        simp [memRead, hr, Option.some.inj (hb'.symm.trans hb)]
      · simp [hn] at hb
    | succ i =>
      have h' : i < (memRead (a + 1) n (readByte a s).2).1.length := by simpa [memRead] using h
      have hbuf : (readByte a s).2.byteAt (a + 1 + i) = some b := by
        have hab : a + 1 + i = a + (i + 1) := by omega
        rcases readByte_cases a s with ⟨b', -, hr⟩ | ⟨-, hr⟩ <;>
          simpa [hr, State.byteAt, hab] using hb
      simpa [memRead] using ih (a + 1) _ i h' b hbuf

/-- A read of written bytes draws nothing. -/
theorem memRead_written {a n : Nat} {s : State} (h : s.written a n) : (memRead a n s).2 = s := by
  induction n generalizing a s with
  | zero => rfl
  | succ n ih =>
    obtain ⟨b, hb⟩ := h 0 (by omega)
    rcases readByte_cases a s with ⟨b', -, hr⟩ | ⟨hn, -⟩
    · rw [memRead, hr]
      refine ih fun i hi => ?_
      have := h (i + 1) (by omega)
      rwa [show a + 1 + i = a + (i + 1) by omega]
    · simp [hn] at hb

/-- Two reads in a row are one read over the joined span. -/
theorem memRead_append (a n m : Nat) (s : State) :
    memRead a (n + m) s =
      ((memRead a n s).1 ++ (memRead (a + n) m (memRead a n s).2).1,
        (memRead (a + n) m (memRead a n s).2).2) := by
  induction n generalizing a s with
  | zero => simp [memRead]
  | succ n ih =>
    rw [show n + 1 + m = (n + m) + 1 by omega]
    simp [memRead, ih, show a + 1 + n = a + (n + 1) by omega]

/-- What a read gives depends on BUF and the count of draws alone. -/
theorem memRead_congr {a n : Nat} {s t : State} (hb : s.buf = t.buf) (hd : s.draws = t.draws) :
    (memRead a n s).1 = (memRead a n t).1 ∧ (memRead a n s).2.draws = (memRead a n t).2.draws := by
  induction n generalizing a s t with
  | zero => exact ⟨rfl, hd⟩
  | succ n ih =>
    have hr : (readByte a s).1 = (readByte a t).1 ∧ (readByte a s).2.buf = (readByte a t).2.buf ∧
        (readByte a s).2.draws = (readByte a t).2.draws := by
      unfold readByte
      rw [hb, hd]
      cases Memory.lookup a t.buf with
      | some b => exact ⟨rfl, hb, hd⟩
      | none => exact ⟨rfl, hb, rfl⟩
    obtain ⟨h1, h2⟩ := ih (a := a + 1) hr.2.1 hr.2.2
    exact ⟨by simp only [memRead, hr.1, h1], h2⟩

/-- PUTw: all it can do. -/
theorem putInt_cases (w : Nat) (s : State) :
    (s.pos.toNat + w ≤ s.lim.toNat ∧
      putInt w s = .next { s with
        buf := Memory.insertAll s.pos.toNat (encodeBytes w s.data) s.buf
        pos := BitVec.ofNat 32 (s.pos.toNat + w)
        status := statusCompleted false s.status }) ∨
    (¬ s.pos.toNat + w ≤ s.lim.toNat ∧ putInt w s = .next { s with status := statusFailed .eOverflow }) := by
  unfold putInt
  split
  · exact .inl ⟨fits_iff.1 ‹_›, rfl⟩
  · exact .inr ⟨fun h => ‹¬ _› (fits_iff.2 h), rfl⟩

/-- GETw: all it can do. -/
theorem getInt_cases (w : Nat) (s : State) :
    (s.pos.toNat + w ≤ s.lim.toNat ∧
      getInt w s = .next { s with
        data := decodeBytes (memRead s.pos.toNat w s).1
        pos := BitVec.ofNat 32 (s.pos.toNat + w)
        status := statusCompleted false s.status
        draws := (memRead s.pos.toNat w s).2.draws }) ∨
    (¬ s.pos.toNat + w ≤ s.lim.toNat ∧ getInt w s = .next { s with status := statusFailed .eTrunc }) := by
  unfold getInt
  split
  · refine .inl ⟨fits_iff.1 ‹_›, ?_⟩
    obtain ⟨k, hk⟩ := memRead_state s.pos.toNat w s
    simp only [hk]
    rfl
  · exact .inr ⟨fun h => ‹¬ _› (fits_iff.2 h), rfl⟩

/-- PUTSPAN and GETSPAN: all they can do. -/
theorem takeSpan_cases (e : ErrCode) (n : Nat) (s : State) :
    (s.pos.toNat + n ≤ s.lim.toNat ∧
      takeSpan e n s = .next { s with
        spanAddr := s.pos
        pos := BitVec.ofNat 32 (s.pos.toNat + n)
        status := statusCompleted false s.status }) ∨
    (¬ s.pos.toNat + n ≤ s.lim.toNat ∧ takeSpan e n s = .next { s with status := statusFailed e }) := by
  unfold takeSpan
  split
  · exact .inl ⟨fits_iff.1 ‹_›, rfl⟩
  · exact .inr ⟨fun h => ‹¬ _› (fits_iff.2 h), rfl⟩

/-- The two ends of a command change STATUS and nothing else. -/
theorem complete_eq (s : State) : complete s = .next { s with status := statusCompleted false s.status } := rfl

theorem completeVerify_eq (m : Bool) (s : State) :
    completeVerify m s = .next { s with status := statusCompleted m s.status } := rfl

theorem raise_eq (e : ErrCode) (s : State) : raise e s = .next { s with status := statusFailed e } := rfl

end Sys2Proof.Machine
end

