-- ==== Sys2Proof/Laws/Checksum.lean ====
section
/-! SUPPORT. The checksum function's algebra and the checksum commands: all they can do. -/

namespace Sys2Proof.Machine

theorem crcBits_add (poly : Word) (m n : Nat) (c : Word) :
    crcBits poly (m + n) c = crcBits poly n (crcBits poly m c) := by
  induction m generalizing c with
  | zero => simp [crcBits]
  | succ m ih => rw [Nat.succ_add]; simp [crcBits, ih]

/-- The inner loop is linear over XOR. -/
theorem crcBit_xor (poly a b : Word) : crcBit poly (a ^^^ b) = crcBit poly a ^^^ crcBit poly b := by
  unfold crcBit
  rw [BitVec.getLsbD_xor, BitVec.ushiftRight_xor_distrib]
  cases a.getLsbD 0 <;> cases b.getLsbD 0 <;> simp [BitVec.xor_assoc, BitVec.xor_comm poly]

theorem crcBits_xor (poly : Word) (n : Nat) (a b : Word) :
    crcBits poly n (a ^^^ b) = crcBits poly n a ^^^ crcBits poly n b := by
  induction n generalizing a b with
  | zero => rfl
  | succ n ih => simp [crcBits, crcBit_xor, ih]

/-- CRC2's running value (10_state.md R27): a run over a concatenation is a run after a run. -/
theorem crcRun_append (poly c : Word) (as bs : List Byte) :
    crcRun poly c (as ++ bs) = crcRun poly (crcRun poly c as) bs := by
  simp [crcRun]

/-- CRC1: all it can do. -/
theorem execCrc1_cases (s : State) :
    (s.aAddr.toNat + s.aLen.toNat ≤ s.params.bufCap ∧
      execCrc1 s = .next { s with
        crc := checksum s.params.crcModel (readSpanA s).1
        status := statusCompleted false s.status
        draws := (readSpanA s).2.draws }) ∨
    (¬ s.aAddr.toNat + s.aLen.toNat ≤ s.params.bufCap ∧
      execCrc1 s = .next { s with status := statusFailed .eSpan }) := by
  unfold execCrc1
  split
  · refine .inl ⟨spanOk_iff.1 ‹_›, ?_⟩
    obtain ⟨k, hk⟩ := memRead_state s.aAddr.toNat s.aLen.toNat s
    simp only [readSpanA, hk]
    rfl
  · exact .inr ⟨fun h => ‹¬ _› (spanOk_iff.2 h), rfl⟩

/-- VERIFY: all it can do. -/
theorem execVerify_cases (s : State) :
    (s.aAddr.toNat + s.aLen.toNat ≤ s.params.bufCap ∧
      execVerify s = .next { s with
        crc := checksum s.params.crcModel (readSpanA s).1
        status := statusCompleted (verifyMatch (checksum s.params.crcModel (readSpanA s).1) s.expect) s.status
        draws := (readSpanA s).2.draws }) ∨
    (¬ s.aAddr.toNat + s.aLen.toNat ≤ s.params.bufCap ∧
      execVerify s = .next { s with status := statusFailed .eSpan }) := by
  unfold execVerify
  split
  · refine .inl ⟨spanOk_iff.1 ‹_›, ?_⟩
    obtain ⟨k, hk⟩ := memRead_state s.aAddr.toNat s.aLen.toNat s
    simp only [readSpanA, hk]
    rfl
  · exact .inr ⟨fun h => ‹¬ _› (spanOk_iff.2 h), rfl⟩

/-- CRC2: all it can do. -/
theorem execCrc2_cases (s : State) :
    (s.aAddr.toNat + s.aLen.toNat ≤ s.params.bufCap ∧ s.bAddr.toNat + s.bLen.toNat ≤ s.params.bufCap ∧
      execCrc2 s = .next { s with
        crc := checksum s.params.crcModel
          ((readSpanA s).1 ++ (memRead s.bAddr.toNat s.bLen.toNat (readSpanA s).2).1)
        status := statusCompleted false s.status
        draws := (memRead s.bAddr.toNat s.bLen.toNat (readSpanA s).2).2.draws }) ∨
    (¬ (s.aAddr.toNat + s.aLen.toNat ≤ s.params.bufCap ∧ s.bAddr.toNat + s.bLen.toNat ≤ s.params.bufCap) ∧
      execCrc2 s = .next { s with status := statusFailed .eSpan }) := by
  unfold execCrc2
  split
  · split
    · refine .inl ⟨spanOk_iff.1 ‹_›, spanOk_iff.1 ‹_›, ?_⟩
      obtain ⟨j, hj⟩ := memRead_state s.aAddr.toNat s.aLen.toNat s
      obtain ⟨k, hk⟩ := memRead_state s.bAddr.toNat s.bLen.toNat (s.setDraws j)
      simp only [readSpanA, readSpanB, hj, State.setDraws_fields, hk]
      rfl
    · exact .inr ⟨fun h => ‹¬ _› (spanOk_iff.2 h.2), rfl⟩
  · exact .inr ⟨fun h => ‹¬ _› (spanOk_iff.2 h.1), rfl⟩

end Sys2Proof.Machine
end

