-- ==== Sys2Proof/Laws/Decode.lean ====
section
/-! SUPPORT. The fields of a command word, and what the decoder can answer. -/

namespace Sys2Proof

@[simp] theorem opField_append (arg : BitVec 24) (op : BitVec 8) : opField (arg ++ op) = op := by
  apply BitVec.eq_of_getLsbD_eq
  intro i hi
  simp only [opField, BitVec.getLsbD_extractLsb', BitVec.getLsbD_append]
  simp [hi]

@[simp] theorem argField_append (arg : BitVec 24) (op : BitVec 8) : argField (arg ++ op) = arg := by
  apply BitVec.eq_of_getLsbD_eq
  intro i hi
  simp only [argField, BitVec.getLsbD_extractLsb', BitVec.getLsbD_append]
  simp [hi]

/-- A word is its two fields (30_encoding.md R46). -/
theorem word_eq_fields (w : Word) : w = argField w ++ opField w := by
  apply BitVec.eq_of_getLsbD_eq
  intro i hi
  simp only [argField, opField, BitVec.getLsbD_append, BitVec.getLsbD_extractLsb']
  by_cases h : i < 8
  · simp [h]
  · simp [h, show i - 8 < 24 by omega, show 8 + (i - 8) = i by omega]

/-- A command whose ARG must be 0 decodes only where it is 0. -/
theorem requireZeroArg_ok {w : Word} {i j : Instr} :
    requireZeroArg w i = .ok j ↔ argField w = 0#24 ∧ i = j := by
  unfold requireZeroArg
  split <;> simp_all

end Sys2Proof
end

