-- ==== Sys2Proof/Laws/HostAccess.lean ====
section
/-! SUPPORT. The address map and the host accesses: one lemma for each way an access goes. -/

namespace Sys2Proof.Machine

/-- A 32-bit access at a multiple of 4 below 0x10000 reaches the register region (20_memory.md R31, R37). -/
theorem route_register {p : Params} {o : Nat} (ho : o < 0x10000) (h4 : o % 4 = 0) :
    route p 32 (p.base + o) = .register o := by
  unfold route Config.regionSize Config.windowOffset
  rw [if_neg (by omega)]
  simp [ho, h4]

/-- An 8-bit access to a window address reaches the window (20_memory.md R31, R37). -/
theorem route_window {p : Params} {i : Nat} (hp : p.wf) (hi : i < p.bufCap) :
    route p 8 (p.base + 0x10000 + i) = .window i := by
  have h1 := hp.2.1
  unfold route Config.regionSize Config.windowOffset
  rw [if_neg (by omega)]
  simp [show p.base + 65536 + i - p.base = 65536 + i by omega, show ¬ 65536 + i < 65536 by omega, hi]

/-- Where an access that reaches the register region stands. -/
theorem route_eq_register {p : Params} {bits addr o : Nat} (h : route p bits addr = .register o) :
    bits = 32 ∧ addr = p.base + o ∧ o < 0x10000 ∧ o % 4 = 0 := by
  unfold route Config.regionSize Config.windowOffset at h
  split at h
  · cases h
  · simp only at h
    split at h
    · split at h
      · rename_i h2 h3 h4
        injection h with h
        omega
      · cases h
    · split at h
      · split at h <;> cases h
      · cases h

/-- Where an access that reaches the window stands. -/
theorem route_eq_window {p : Params} {bits addr i : Nat} (h : route p bits addr = .window i) :
    bits = 8 ∧ addr = p.base + 0x10000 + i ∧ i < p.bufCap := by
  unfold route Config.regionSize Config.windowOffset at h
  split at h
  · cases h
  · simp only at h
    split at h
    · split at h <;> cases h
    · split at h
      · split at h
        · injection h with h
          omega
        · cases h
      · cases h

/-- A reserved register offset names no register (10_state.md R17). -/
theorem regAt_reserved {o : Nat} (h : 0x34 ≤ o) : regAt o = none := by
  unfold regAt
  split <;> first | rfl | omega

/-- A host write to a register's own offset is a write to that register. -/
theorem hostAccess_writeReg (r : Reg) (v : Word) (s : State) :
    hostAccess (.write 32 (s.params.base + r.offset) v) s = writeReg r v s := by
  cases r <;> simp only [hostAccess] <;> rw [route_register (by decide) (by decide)] <;> rfl

/-- A host read of a register's own offset returns that register. -/
theorem hostAccess_readReg (r : Reg) (s : State) :
    hostAccess (.read 32 (s.params.base + r.offset)) s = .next (s.pushReturned (.word (readReg r s))) := by
  cases r <;> simp only [hostAccess] <;> rw [route_register (by decide) (by decide)] <;> rfl

/-- A host write of a command word, as an access. -/
theorem takeArrival_cmdWrite (w : Word) (s : State) :
    takeArrival (cmdWrite s.params w) s = performCommand w s :=
  hostAccess_writeReg .cmd w s

/-- A read of one byte changes no field but the count of draws. -/
theorem readByte_state (a : Nat) (s : State) : ∃ k, (readByte a s).2 = s.setDraws k := by
  rcases readByte_cases a s with ⟨b, -, hr⟩ | ⟨-, hr⟩
  · exact ⟨s.draws, by rw [hr]; rfl⟩
  · exact ⟨_, by rw [hr]⟩

end Sys2Proof.Machine
end

