-- ==== Sys2Proof/Laws/Exec.lean ====
section
/-! SUPPORT. Once for all commands: what a command can do. -/

namespace Sys2Proof

/-- What a legal word says of its command (30_encoding.md R47, R48). -/
theorem decode_ok_fields {w : Word} {i : Instr} (h : decode w = .ok i) :
    i.opcode = opField w ∧ i.argument = argField w ∧ i.wellFormed = true := by
  unfold decode at h
  split at h
  all_goals first
    | (cases h; done)
    | (rename_i ho
       rw [requireZeroArg_ok] at h
       obtain ⟨ha, rfl⟩ := h
       exact ⟨BitVec.eq_of_toNat_eq (by rw [ho]; rfl), ha.symm, rfl⟩)
    | (rename_i ho
       cases h
       refine ⟨BitVec.eq_of_toNat_eq (by rw [ho]; rfl), by simp [Instr.argument], ?_⟩
       have := (argField w).isLt
       simp only [Instr.wellFormed, decide_eq_true_eq]
       omega)

namespace Machine

/-- What a command that ends by `complete` leaves: the fields it may write, and the rest as it was. -/
structure Completed (i : Instr) (s t : State) : Prop where
  status : ∃ m, (m = true → i = .verify) ∧ t.status = statusCompleted m s.status
  cursor : (∃ k, cursorBytes i = some k ∧ s.pos.toNat + k ≤ s.lim.toNat ∧
      t.pos = BitVec.ofNat 32 (s.pos.toNat + k)) ∨ (cursorBytes i = none ∧ t.pos = s.pos)
  buf : t.buf = s.buf ∨ ∃ w, i ∈ [Instr.put8, .put16, .put32, .put64] ∧
      s.pos.toNat + w ≤ s.lim.toNat ∧ t.buf = Memory.insertAll s.pos.toNat (encodeBytes w s.data) s.buf
  data : t.data = s.data ∨ i ∈ [Instr.get8, .get16, .get32, .get64]
  crc : t.crc = s.crc ∨ i ∈ [Instr.crc1, .crc2, .verify]
  spanAddr : t.spanAddr = s.spanAddr ∨ ∃ n, i = .putspan n ∨ i = .getspan n
  frame : t = { s with
    buf := t.buf, status := t.status, pos := t.pos, data := t.data, crc := t.crc,
    spanAddr := t.spanAddr, draws := t.draws }

/-- What a command does: it answers a next state, and either failed, with STATUS alone changed, or
completed. -/
def Outcomes (i : Instr) (s : State) (r : Result) : Prop :=
  ∃ t, r = .next t ∧
    ((∃ e, e ≠ .eNone ∧ e ≠ .eIllegal ∧ t = { s with status := statusFailed e }) ∨ Completed i s t)

theorem putInt_outcomes {i : Instr} {w : Nat} (hc : cursorBytes i = some w)
    (hi : i ∈ [Instr.put8, .put16, .put32, .put64]) (s : State) : Outcomes i s (putInt w s) := by
  rcases putInt_cases w s with ⟨hf, e⟩ | ⟨-, e⟩
  · exact ⟨_, e, .inr ⟨⟨false, nofun, rfl⟩, .inl ⟨w, hc, hf, rfl⟩, .inr ⟨w, hi, hf, rfl⟩, .inl rfl, .inl rfl, .inl rfl, rfl⟩⟩
  · exact ⟨_, e, .inl ⟨.eOverflow, nofun, nofun, rfl⟩⟩

theorem getInt_outcomes {i : Instr} {w : Nat} (hc : cursorBytes i = some w)
    (hi : i ∈ [Instr.get8, .get16, .get32, .get64]) (s : State) : Outcomes i s (getInt w s) := by
  rcases getInt_cases w s with ⟨hf, e⟩ | ⟨-, e⟩
  · exact ⟨_, e, .inr ⟨⟨false, nofun, rfl⟩, .inl ⟨w, hc, hf, rfl⟩, .inl rfl, .inr hi, .inl rfl, .inl rfl, rfl⟩⟩
  · exact ⟨_, e, .inl ⟨.eTrunc, nofun, nofun, rfl⟩⟩

theorem takeSpan_outcomes {i : Instr} {n : Nat} {e : ErrCode} (he : e ≠ .eNone ∧ e ≠ .eIllegal)
    (hc : cursorBytes i = some n) (hi : ∃ n, i = .putspan n ∨ i = .getspan n) (s : State) :
    Outcomes i s (takeSpan e n s) := by
  rcases takeSpan_cases e n s with ⟨hf, h⟩ | ⟨-, h⟩
  · exact ⟨_, h, .inr ⟨⟨false, nofun, rfl⟩, .inl ⟨n, hc, hf, rfl⟩, .inl rfl, .inl rfl, .inl rfl, .inr hi, rfl⟩⟩
  · exact ⟨_, h, .inl ⟨e, he.1, he.2, rfl⟩⟩

/-- Every command, from every state: all it can do. -/
theorem exec_outcomes (i : Instr) (s : State) : Outcomes i s (exec i s) := by
  cases i
  case nop => exact ⟨_, rfl, .inr ⟨⟨false, nofun, rfl⟩, .inr ⟨rfl, rfl⟩, .inl rfl, .inl rfl, .inl rfl, .inl rfl, rfl⟩⟩
  case put8 => exact putInt_outcomes (w := 1) rfl (by simp) s
  case put16 => exact putInt_outcomes (w := 2) rfl (by simp) s
  case put32 => exact putInt_outcomes (w := 4) rfl (by simp) s
  case put64 => exact putInt_outcomes (w := 8) rfl (by simp) s
  case get8 => exact getInt_outcomes (w := 1) rfl (by simp) s
  case get16 => exact getInt_outcomes (w := 2) rfl (by simp) s
  case get32 => exact getInt_outcomes (w := 4) rfl (by simp) s
  case get64 => exact getInt_outcomes (w := 8) rfl (by simp) s
  case putspan n => exact takeSpan_outcomes (e := .eOverflow) ⟨nofun, nofun⟩ rfl ⟨n, .inl rfl⟩ s
  case getspan n => exact takeSpan_outcomes (e := .eTrunc) ⟨nofun, nofun⟩ rfl ⟨n, .inr rfl⟩ s
  case crc1 =>
    rcases execCrc1_cases s with ⟨-, e⟩ | ⟨-, e⟩
    · exact ⟨_, e, .inr ⟨⟨false, nofun, rfl⟩, .inr ⟨rfl, rfl⟩, .inl rfl, .inl rfl, .inr (by simp), .inl rfl, rfl⟩⟩
    · exact ⟨_, e, .inl ⟨.eSpan, nofun, nofun, rfl⟩⟩
  case crc2 =>
    rcases execCrc2_cases s with ⟨-, -, e⟩ | ⟨-, e⟩
    · exact ⟨_, e, .inr ⟨⟨false, nofun, rfl⟩, .inr ⟨rfl, rfl⟩, .inl rfl, .inl rfl, .inr (by simp), .inl rfl, rfl⟩⟩
    · exact ⟨_, e, .inl ⟨.eSpan, nofun, nofun, rfl⟩⟩
  case verify =>
    rcases execVerify_cases s with ⟨-, e⟩ | ⟨-, e⟩
    · exact ⟨_, e, .inr ⟨⟨_, fun _ => rfl, rfl⟩, .inr ⟨rfl, rfl⟩, .inl rfl, .inl rfl, .inr (by simp), .inl rfl, rfl⟩⟩
    · exact ⟨_, e, .inl ⟨.eSpan, nofun, nofun, rfl⟩⟩

/-- A command word: an illegal one ends with E_ILLEGAL, a legal one is its command. -/
theorem performCommand_cases (w : Word) (s : State) :
    (∃ e, decode w = .error e ∧ performCommand w s = .next { s with status := statusFailed .eIllegal }) ∨
    (∃ i, decode w = .ok i ∧ performCommand w s = exec i s) := by
  unfold performCommand
  cases decode w with
  | error e => exact .inl ⟨e, rfl, rfl⟩
  | ok i => exact .inr ⟨i, rfl, rfl⟩

end Machine

end Sys2Proof
end

