-- ==== Sys2Proof/Laws/HostProgram.lean ====
section
/-! SUPPORT. What the host's operations do to the block: one lemma an operation. -/

namespace Sys2Proof.Machine

/-- `wr REG, V` is a host write of the expression's 32-bit value to the register. -/
theorem issue_wr (r : Reg) (e : HostExpr) (h : HostSystem) {b : State}
    (hb : writeReg r (BitVec.ofNat 32 (evalExpr h.vars e)) h.block = .next b) :
    issue (.wr r e) h = .next { h with block := b } := by
  simp only [issue, hostOpAccess, hostAccess_writeReg, hb, hostOpTarget]

/-- A command is a host write of its word to CMD. -/
theorem issue_command (i : Instr) (h : HostSystem) {b : State}
    (hb : performCommand (encode i) h.block = .next b) :
    issue (.command i) h = .next { h with block := b } := by
  have := hostAccess_writeReg .cmd (encode i) h.block
  simp only [issue, hostOpAccess, this, writeReg, hb, hostOpTarget]

/-- `rd REG -> t` puts the register's value into the host variable. -/
theorem issue_rd (r : Reg) (t : Nat) (h : HostSystem) :
    issue (.rd r t) h = .next { h with
      block := h.block.pushReturned (.word (readReg r h.block))
      vars := (t, (readReg r h.block).toNat) :: h.vars } := by
  simp only [issue, hostOpAccess, hostAccess_readReg, hostOpTarget, State.pushReturned_fields, returnedNat]

end Sys2Proof.Machine
end

