-- ==== Sys2Proof/Laws/PerInstr.lean ====
section
/-! SUPPORT. Facts about each command as syntax, one lemma a constructor. -/

namespace Sys2Proof.Laws.EncodeFields

/-- The two fields of a command's word are its opcode and its argument, and the argument keeps the
whole span length of a well-formed command (30_encoding.md R46 to R48). -/
def Statement (i : Instr) : Prop :=
  opField (encode i) = i.opcode ∧ argField (encode i) = i.argument ∧
    (i.wellFormed = true → ∀ n, i = .putspan n ∨ i = .getspan n → i.argument.toNat = n)

theorem of_fields (i : Instr)
    (h : i.wellFormed = true → ∀ n, i = .putspan n ∨ i = .getspan n → i.argument.toNat = n) :
    Statement i :=
  ⟨opField_append _ _, argField_append _ _, h⟩

theorem nop : Statement .nop := of_fields _ (by simp)
theorem put8 : Statement .put8 := of_fields _ (by simp)
theorem put16 : Statement .put16 := of_fields _ (by simp)
theorem put32 : Statement .put32 := of_fields _ (by simp)
theorem put64 : Statement .put64 := of_fields _ (by simp)
theorem get8 : Statement .get8 := of_fields _ (by simp)
theorem get16 : Statement .get16 := of_fields _ (by simp)
theorem get32 : Statement .get32 := of_fields _ (by simp)
theorem get64 : Statement .get64 := of_fields _ (by simp)
theorem putspan (n : Nat) : Statement (.putspan n) :=
  of_fields _ (by simp [Instr.wellFormed, Instr.argument]; omega)
theorem getspan (n : Nat) : Statement (.getspan n) :=
  of_fields _ (by simp [Instr.wellFormed, Instr.argument]; omega)
theorem crc1 : Statement .crc1 := of_fields _ (by simp)
theorem crc2 : Statement .crc2 := of_fields _ (by simp)
theorem verify : Statement .verify := of_fields _ (by simp)

end Sys2Proof.Laws.EncodeFields
end

