-- ==== Sys2Proof/Laws/Step.lean ====
section
/-! SUPPORT. What one step can do: the arrival it takes, and where a host access goes. -/

namespace Sys2Proof.Machine

/-- A step that answers a next state had nothing to take and changed nothing, or took the first arrival. -/
theorem step_cases {s t : State} (h : step s = .next t) :
    (s.arrivals = [] ∧ t = s) ∨
    ∃ x rest, s.arrivals = x :: rest ∧ takeArrival x (s.setArrivals rest) = .next t := by
  unfold step at h
  split at h
  · cases h
    exact .inl ⟨‹_›, rfl⟩
  · exact .inr ⟨_, _, ‹_›, h⟩

/-- A host read: of a register, of a window byte, or refused. -/
theorem hostAccess_read_cases (bits addr : Nat) (s : State) :
    (∃ o, route s.params bits addr = .register o ∧
      hostAccess (.read bits addr) s = .next (s.pushReturned (.word (readOffset o s)))) ∨
    (∃ i k, route s.params bits addr = .window i ∧
      hostAccess (.read bits addr) s = .next ((s.setDraws k).pushReturned (.byte (readByte i s).1))) ∨
    (∃ r, route s.params bits addr = .refuse r ∧ hostAccess (.read bits addr) s = .refused r) := by
  cases hr : route s.params bits addr with
  | register o => exact .inl ⟨o, rfl, by simp only [hostAccess, hr]⟩
  | window i =>
    obtain ⟨k, hk⟩ := readByte_state i s
    exact .inr (.inl ⟨i, k, rfl, by simp only [hostAccess, hr, readWindow, hk]⟩)
  | refuse r => exact .inr (.inr ⟨r, rfl, by simp only [hostAccess, hr]⟩)

/-- A host write: to a register, to a window byte, or refused. -/
theorem hostAccess_write_cases (bits addr : Nat) (v : Word) (s : State) :
    (∃ o, route s.params bits addr = .register o ∧ hostAccess (.write bits addr v) s = writeOffset o v s) ∨
    (∃ i, route s.params bits addr = .window i ∧
      hostAccess (.write bits addr v) s = .next (memWrite i [v.setWidth 8] s)) ∨
    (∃ r, route s.params bits addr = .refuse r ∧ hostAccess (.write bits addr v) s = .refused r) := by
  cases hr : route s.params bits addr with
  | register o => exact .inl ⟨o, rfl, by simp only [hostAccess, hr]⟩
  | window i => exact .inr (.inl ⟨i, rfl, by simp only [hostAccess, hr, writeWindow]⟩)
  | refuse r => exact .inr (.inr ⟨r, rfl, by simp only [hostAccess, hr]⟩)

/-- Within the parameters' bounds, the map refuses exactly what the spec does (20_memory.md R32, R37). -/
theorem legalAccess_iff {p : Params} (hp : p.wf) (bits addr : Nat) :
    legalAccess p bits addr ↔ ∀ r, route p bits addr ≠ .refuse r := by
  constructor
  · rintro (⟨rfl, o, rfl, ho, h4⟩ | ⟨rfl, i, rfl, hi⟩) r
    · rw [route_register ho h4]
      nofun
    · rw [route_window hp hi]
      nofun
  · intro h
    cases hr : route p bits addr with
    | register o =>
      obtain ⟨hb, ha, ho, h4⟩ := route_eq_register hr
      exact .inl ⟨hb, o, ha, ho, h4⟩
    | window i =>
      obtain ⟨hb, ha, hi⟩ := route_eq_window hr
      exact .inr ⟨hb, i, ha, hi⟩
    | refuse r => exact absurd hr (h r)

end Sys2Proof.Machine
end

