-- ==== Sys2Proof/Tests/Slice0.lean ====
section
/-! SUPPORT. The model's own tests, with the spec vector each expected value comes from, and a witness for
the hypotheses of every statement. -/

namespace Sys2Proof.Tests
open Sys2Proof Sys2Proof.Machine

/-- A field of the next state an operation answers. -/
def after {α : Type} (r : Result) (f : State → α) : Option α :=
  match r with
  | .next s => some (f s)
  | .fault _ => none
  | .refused _ => none

/-- The STATUS word an operation leaves. -/
def statusAfter (r : Result) : Option Word := after r (fun s => statusWord s.status)

/-- The reset state with a cursor, a limit, a DATA value and BUF contents. -/
def at_ (pos lim : Word) (data : DWord) (buf : Memory) : State :=
  { State.reset with pos := pos, lim := lim, data := data, buf := buf }

/-- Consecutive bytes of BUF. -/
def cells (a : Nat) (bs : List Byte) : Memory := Memory.insertAll a bs []

/-- ASCII "123456789" at index 0, with span A, span B and EXPECT (95_test_vectors.md 2.5). -/
def digits (aAddr aLen bAddr bLen expect : Word) : State :=
  { State.reset with
    buf := cells 0 [0x31, 0x32, 0x33, 0x34, 0x35, 0x36, 0x37, 0x38, 0x39]
    aAddr := aAddr, aLen := aLen, bAddr := bAddr, bLen := bLen, expect := expect }

/-! ## WellFormed and decoding -/

theorem test_wf_refuses_long_putspan : (Instr.putspan 0x1000000).wellFormed = false := by decide
theorem test_wf_refuses_long_getspan : (Instr.getspan 0x1000000).wellFormed = false := by decide

/-- The words of 40_byte_order.md R60 to R69, 41_checksum.md R77 to R79 and 42_control.md R83. -/
theorem test_decode_nop : decode 0x00000000 = .ok .nop := by decide
theorem test_decode_put8 : decode 0x00000001 = .ok .put8 := by decide
theorem test_decode_put16 : decode 0x00000002 = .ok .put16 := by decide
theorem test_decode_put32 : decode 0x00000003 = .ok .put32 := by decide
theorem test_decode_put64 : decode 0x00000004 = .ok .put64 := by decide
theorem test_decode_get8 : decode 0x00000005 = .ok .get8 := by decide
theorem test_decode_get16 : decode 0x00000006 = .ok .get16 := by decide
theorem test_decode_get32 : decode 0x00000007 = .ok .get32 := by decide
theorem test_decode_get64 : decode 0x00000008 = .ok .get64 := by decide
theorem test_decode_putspan : decode 0x00000409 = .ok (.putspan 4) := by decide
theorem test_decode_getspan : decode 0x0100010A = .ok (.getspan 65537) := by decide
theorem test_decode_crc1 : decode 0x00000010 = .ok .crc1 := by decide
theorem test_decode_crc2 : decode 0x00000011 = .ok .crc2 := by decide
theorem test_decode_verify : decode 0x00000012 = .ok .verify := by decide
/-- 30_encoding.md R47: the reserved opcodes at the edges of their ranges; R49: an ARG that is not 0. -/
theorem test_decode_reserved :
    [0x0000000B, 0x0000000F, 0x00000013, 0xFFFFFFFF].map decode =
      [.error .reservedOp, .error .reservedOp, .error .reservedOp, .error .reservedOp] := by decide
theorem test_decode_arg_nonzero : decode 0x00000107 = .error .argNonzero := by decide
theorem test_decodeTableWord : decodeTableWord 32 0xFFFFFF0A = some (.getspan 0xFFFFFF) := by decide

/-! ## Commands (95_test_vectors.md Part 2) -/

/-- V-E1, V-E3. -/
theorem test_nop_clears_match :
    statusAfter (exec .nop { State.reset with status := ⟨0, true, true⟩ }) = some 0x20 := by decide
theorem test_nop_with_arg_is_illegal : statusAfter (performCommand 0x100 State.reset) = some 0x24 := by decide
/-- V-P2, V-P3. -/
theorem test_put8_low_byte : after (exec .put8 (at_ 0 29 0xFFFFFFFFFFFFFFAB [])) (fun s => (s.buf, s.pos)) =
    some ([(0, 0xAB)], 1) := by decide
theorem test_put8_at_limit : statusAfter (exec .put8 (at_ 29 29 0 [])) = some 0x22 := by decide
/-- V-P4, V-P5. -/
theorem test_put16_bytes : after (exec .put16 (at_ 5 29 0x0102 [])) (fun s => s.buf) =
    some [(5, 0x01), (6, 0x02)] := by decide
theorem test_put16_no_partial_write : after (exec .put16 (at_ 28 29 0x0102 [])) (fun s => (s.buf, s.pos)) =
    some ([], 28) := by decide
/-- V-P6, V-P7. -/
theorem test_put32_bytes : after (exec .put32 (at_ 0 29 0x12345678 [])) (fun s => s.buf) =
    some [(0, 0x12), (1, 0x34), (2, 0x56), (3, 0x78)] := by decide
theorem test_put32_exact_fit : after (exec .put32 (at_ 25 29 0xCBF43926 [])) (fun s => s.pos) = some 29 := by decide
/-- V-P9, V-P10. -/
theorem test_put64_bytes : after (exec .put64 (at_ 0 29 0x0102030405060708 [])) (fun s => s.buf) =
    some [(0, 1), (1, 2), (2, 3), (3, 4), (4, 5), (5, 6), (6, 7), (7, 8)] := by decide
theorem test_put64_no_wraparound : statusAfter (exec .put64 (at_ 0xFFFFFFFF 29 0 [])) = some 0x22 := by decide
/-- V-G2, V-G12. -/
theorem test_get8_zero_extends :
    after (exec .get8 (at_ 0 29 0x1111111111111111 [(0, 0xFF)])) (fun s => s.data) = some 0xFF := by decide
theorem test_get8_at_bufcap : statusAfter (exec .get8 (at_ 65565 65565 0 [])) = some 0x21 := by decide
/-- V-G3, V-G4. -/
theorem test_get16_value : after (exec .get16 (at_ 5 29 0 (cells 5 [0x01, 0x00]))) (fun s => (s.data, s.pos)) =
    some (0x0100, 7) := by decide
theorem test_get16_client_sign : after (exec .get16 (at_ 0 29 0 (cells 0 [0xFF, 0xFE])))
    (fun s => (signedField 2 s.data).toInt) = some (-2) := by decide
/-- V-G5, V-G8. -/
theorem test_get32_value : after (exec .get32 (at_ 9 29 0 (cells 9 [0x80, 0, 0, 0]))) (fun s => s.data) =
    some 0x80000000 := by decide
theorem test_get32_truncated : after (exec .get32 (at_ 25 28 0x0000018BCFE56800 []))
    (fun s => (statusWord s.status, s.pos, s.data)) = some (0x21, 25, 0x0000018BCFE56800) := by decide
/-- V-G6, V-G9. -/
theorem test_get64_value :
    after (exec .get64 (at_ 13 29 0 (cells 13 [0, 0, 1, 0x8B, 0xCF, 0xE5, 0x68, 0]))) (fun s => s.data) =
      some 0x0000018BCFE56800 := by decide
theorem test_get64_truncated : statusAfter (exec .get64 (at_ 22 29 0 [])) = some 0x21 := by decide
/-- V-S1, V-S3. -/
theorem test_putspan_reserves : after (exec (.putspan 4) (at_ 21 29 0 [])) (fun s => (s.spanAddr, s.pos, s.buf)) =
    some (21, 25, []) := by decide
theorem test_putspan_past_limit : statusAfter (exec (.putspan 0) (at_ 30 29 0 [])) = some 0x22 := by decide
/-- V-S4, V-S6. -/
theorem test_getspan_largest : after (exec (.getspan 65536) (at_ 25 65565 0 [])) (fun s => (s.spanAddr, s.pos)) =
    some (25, 65561) := by decide
theorem test_getspan_truncated : statusAfter (exec (.getspan 4) (at_ 25 28 0 [])) = some 0x21 := by decide
/-- V-K1, V-K5. -/
theorem test_crc1_check_value : after (exec .crc1 (digits 0 9 0 0 0)) (fun s => s.crc) = some 0xCBF43926 := by
  decide +kernel
theorem test_crc1_past_bufcap : statusAfter (exec .crc1 (digits 65565 1 0 0 0)) = some 0x23 := by decide
/-- V-K8, V-K10. -/
theorem test_crc2_order : after (exec .crc2 (digits 4 5 0 4 0)) (fun s => s.crc) = some 0x5276309D := by
  decide +kernel
theorem test_crc2_span_b_past_bufcap : statusAfter (exec .crc2 (digits 0 9 65565 1 0)) = some 0x23 := by decide
/-- V-K12, V-K13. -/
theorem test_verify_match :
    after (exec .verify (digits 0 9 0 0 0xCBF43926)) (fun s => (s.crc, statusWord s.status)) =
      some (0xCBF43926, 0x10) := by decide +kernel
theorem test_verify_mismatch :
    after (exec .verify (digits 0 9 0 0 0xCBF43927)) (fun s => (s.crc, statusWord s.status)) =
      some (0xCBF43926, 0x00) := by decide +kernel

/-! ## The checksum function (95_test_vectors.md 2.4) -/

/-- V-C3, V-C5. -/
theorem test_crc32_bytes : (crc32 [0x61], crc32 [0xFF]) = (0xE8B7BE43, 0xFF000000) := by decide +kernel

/-! ## Host accesses and reset (95_test_vectors.md 2.7) -/

/-- V-H1, V-H4, V-H9. -/
theorem test_write_lim_clamps : after (writeReg .lim 0xFFFFFFFF State.reset) (fun s => s.lim) = some 0x0001001D := by
  decide
theorem test_write_status_clears_sticky :
    statusAfter (writeReg .status 0x20 { State.reset with status := ⟨1, false, true⟩ }) = some 0x01 := by decide
theorem test_write_data_lo : after (writeReg .dataLo 1 (at_ 0 0 0x0000018BCFE56800 [])) (fun s => s.data) =
    some 0x0000018B00000001 := by decide
/-- V-H8, V-H11. -/
theorem test_reserved_offset : after (hostAccess (.write 32 0x34 0x12345678) State.reset) (readOffset 0x34) = some 0 := by
  decide
theorem test_window_write_ignores_lim :
    after (hostAccess (.write 8 (0x10000 + 40) 0xAA) (at_ 0 29 0 [])) (fun s => s.byteAt 40) = some (some 0xAA) := by
  decide
/-- V-H13. -/
theorem test_refused_widths :
    route Params.default 16 0x04 = .refuse .registerAccessForm ∧
    route Params.default 32 0x10000 = .refuse .windowAccessForm := by decide
/-- V-H12. -/
theorem test_reset_keeps_buf : after (takeArrival .reset (at_ 3 4 5 [(7, 0x5A)])) (fun s => (s.buf, s.pos, s.lim)) =
    some ([(7, 0x5A)], 0, 65565) := by decide
/-- 30_encoding.md R56: `clrsticky` is `wr STATUS, 0x00000020`. -/
theorem test_clrsticky_expansion : expand .clrsticky = [.wr .status (.num 0x20)] := by decide

/-- 95_test_vectors.md P1: the accesses of `put64 #1700000000000`. -/
theorem test_put64_accesses :
    (expand (.putN .n64 (.num 1700000000000))).map (hostOpAccess Params.default []) =
      [.write 32 0x10 0x0000018B, .write 32 0x14 0xCFE56800, .write 32 0x00 0x00000004] := by decide
/-- 95_test_vectors.md P1 and 30_encoding.md R55: `putspan 4`, and `getspan L` of a host variable. -/
theorem test_span_words :
    hostOpAccess Params.default [] (.putspan (.num 4)) = .write 32 0x00 0x00000409 ∧
    hostOpAccess Params.default [(7, 3)] (.getspan (.var 7)) = .write 32 0x00 0x0000030A := by decide

/-! ## Witnesses: states and operands that meet the hypotheses of the statements, with a boundary value for
each clause -/

theorem witness_ResetEventWritesEveryRegisterAndKeepsBuf :
    ∃ s t : State, s.params.wf ∧ s.arrivals = [.reset] ∧ t.params.wf ∧ t.arrivals = [.powerUp] :=
  ⟨State.reset.setArrivals [.reset], State.reset.setArrivals [.powerUp], by decide, rfl, by decide, rfl⟩

/-- PUTw and GETw: the last width that fits below a limit of 29 and the first that does not. -/
theorem witness_PutWritesDataBigEndianAtPos_and_GetReadsBigEndianIntoData :
    ∀ w ∈ [1, 2, 4, 8],
      (at_ (BitVec.ofNat 32 (29 - w)) 29 0 []).pos.toNat + w ≤ 29 ∧
      29 < (at_ (BitVec.ofNat 32 (30 - w)) 29 0 []).pos.toNat + w := by decide

/-- PUTSPAN and GETSPAN: an empty span at the limit, and one past it. -/
theorem witness_PutspanReserves_and_GetspanConsumes :
    (at_ 29 29 0 []).pos.toNat + 0 ≤ (at_ 29 29 0 []).lim.toNat ∧
    (at_ 30 29 0 []).lim.toNat < (at_ 30 29 0 []).pos.toNat + 0 := by decide

/-- CRC1, CRC2 and VERIFY: the empty span at BUF_CAP is valid (V-K4), and one byte there is not (V-K5). -/
theorem witness_Crc1_Crc2_Verify :
    (digits 65565 0 65565 0 0).aAddr.toNat + (digits 65565 0 65565 0 0).aLen.toNat ≤ 65565 ∧
    (digits 65565 0 65565 0 0).bAddr.toNat + (digits 65565 0 65565 0 0).bLen.toNat ≤ 65565 ∧
    65565 < (digits 65565 1 0 0 0).aAddr.toNat + (digits 65565 1 0 0 0).aLen.toNat ∧
    65565 < (digits 0 9 65565 1 0).bAddr.toNat + (digits 0 9 65565 1 0).bLen.toNat ∧
    (digits 0 9 0 0 0).params.crcModel = .isoHdlc := by decide

theorem witness_written_digits : (digits 0 9 3 4 0).written 0 9 ∧ (digits 0 9 3 4 0).written 3 4 := by
  have h : ∀ i < 9, ((digits 0 9 3 4 0).byteAt i).isSome := by decide
  refine ⟨fun i hi => ?_, fun i hi => ?_⟩
  · simpa using Option.isSome_iff_exists.1 (h i hi)
  · exact Option.isSome_iff_exists.1 (h (3 + i) (by omega))

/-- The edges of the reserved ranges, an ARG that is not 0, and their legal neighbours. -/
theorem witness_IllegalWordRaisesOnlyEIllegal :
    (opField 0x0B).toNat = 0x0B ∧ (opField 0x0F).toNat = 0x0F ∧ (opField 0x13).toNat = 0x13 ∧
    (opField 0xFF).toNat = 0xFF ∧ argField 0x100 ≠ 0 ∧
    (opField 0x0A).toNat = 0x0A ∧ (opField 0x10).toNat = 0x10 ∧ (opField 0x12).toNat = 0x12 ∧
    opField 0xFFFFFF09 = 0x09 := by decide

theorem witness_DecodeOfEncodeIsTheCommand :
    (Instr.putspan 0xFFFFFF).wellFormed = true ∧ (Instr.getspan 0).wellFormed = true := by decide

theorem witness_EncodeOfDecodeIsTheWord : decode 0xFFFFFF09 = .ok (.putspan 0xFFFFFF) := by decide

theorem witness_StepPerformsTheCommandWord :
    ∃ s t : State, s.arrivals = [.access (.write 32 s.params.base 3)] ∧ decode 3 = .ok .put32 ∧
      t.arrivals = [.access (.write 32 t.params.base 0x0B)] ∧ decode 0x0B = .error .reservedOp ∧
      decodeTableWord 32 3 = some .put32 :=
  ⟨State.reset.setArrivals [.access (.write 32 0 3)], State.reset.setArrivals [.access (.write 32 0 0x0B)],
    rfl, by decide, rfl, by decide, by decide⟩

theorem witness_StepTakesArrivalsInOrder :
    State.reset.arrivals = [] ∧ ∃ t, step (State.reset.withFetchWord 32 3) = .next t ∧
      (State.reset.withFetchWord 32 3).arrivals ≠ [] :=
  ⟨rfl, _, rfl, by decide⟩

theorem witness_StepKeepsTheStateLegal :
    ∃ s t : State, s.Inv ∧ step s = .next t :=
  ⟨State.reset, State.reset, ⟨by decide, List.Pairwise.nil, nofun, by decide, by decide, nofun⟩, rfl⟩

/-- For StepKeepsTheParameters; and the bounds hold of the default parameters, for every statement that
asks for them. -/
theorem witness_params : Params.default.wf ∧ ∃ t, step (State.reset.withFetchWord 32 0) = .next t :=
  ⟨by decide, _, rfl⟩

theorem witness_FailingCommandChangesOnlyStatus :
    ∃ t, performCommand 0x0B State.reset = .next t ∧ t.status.err ≠ 0 := ⟨_, rfl, by decide⟩

theorem witness_SuccessKeepsStickyAndClearsMatch :
    ∃ t, performCommand 0x03 State.reset = .next t ∧ t.status.err = 0 ∧ decode 0x03 ≠ .ok .verify :=
  ⟨_, rfl, by decide, by decide⟩

/-- One command for each clause that changes what the clause is about. -/
theorem witness_CommandWritesOnlyItsRegisters :
    (∃ t, exec .put8 State.reset = .next t ∧ t.buf ≠ State.reset.buf ∧ t.pos ≠ State.reset.pos) ∧
    (∃ t, exec .get8 (at_ 0 29 0 [(0, 1)]) = .next t ∧ t.data ≠ 0) ∧
    (∃ t, exec .crc1 { at_ 0 29 0 [(0, 1)] with aLen := 1 } = .next t ∧ t.crc ≠ 0) ∧
    (∃ t, exec (.putspan 1) (at_ 3 29 0 []) = .next t ∧ t.spanAddr ≠ 0) ∧
    (∃ t, exec .verify State.reset = .next t ∧ t.status.matched = true) :=
  ⟨⟨_, rfl, by decide, by decide⟩, ⟨_, rfl, by decide⟩, ⟨_, rfl, by decide +kernel⟩, ⟨_, rfl, by decide⟩,
    ⟨_, rfl, by decide⟩⟩

/-- A step of each kind that changes BUF. -/
theorem witness_BufChangesOnlyByPutWindowWriteOrPowerUp :
    (∃ t, step (State.reset.withFetchWord 32 1) = .next t ∧ t.buf ≠ []) ∧
    (∃ t, step (State.reset.setArrivals [.access (.write 8 0x10000 7)]) = .next t ∧ t.buf ≠ []) ∧
    (∃ t, step ((at_ 0 0 0 [(0, 1)]).setArrivals [.powerUp]) = .next t ∧ t.buf ≠ [(0, 1)]) :=
  ⟨⟨_, rfl, by decide⟩, ⟨_, rfl, by decide⟩, ⟨_, rfl, by decide⟩⟩

/-- For BoundsTestGuardsTheCursor and CursorAdvancesByTheExactWidth, on the reset state, which is legal. -/
theorem witness_BoundsTest_and_CursorAdvances :
    cursorBytes (.putspan 65565) = some 65565 ∧ State.reset.pos.toNat + 65565 ≤ State.reset.lim.toNat ∧
    cursorBytes (.putspan 65566) = some 65566 ∧ State.reset.lim.toNat < State.reset.pos.toNat + 65566 ∧
    cursorBytes .get64 = some 8 := by decide

theorem witness_PutSeekGet_and_NarrowGet :
    (at_ 25 29 0 []).pos.toNat + 4 ≤ (at_ 25 29 0 []).lim.toNat ∧
    (26 : Word).toNat = (at_ 25 29 0 []).pos.toNat + 1 := by decide

theorem witness_EmptyInput_and_Crc2WithAnEmptySpan :
    (digits 65565 0 65565 0 0).aLen = 0 ∧ (digits 65565 0 65565 0 0).aAddr.toNat ≤ 65565 ∧
    (digits 65565 0 65565 0 0).bLen = 0 ∧ (digits 65565 0 65565 0 0).bAddr.toNat ≤ 65565 := by decide

/-- V-K7's spans, and spans that end at BUF_CAP. -/
theorem witness_Crc2OfAdjacentSpans :
    (digits 0 4 4 5 0).bAddr.toNat = 0 + 4 ∧ (9 : Word).toNat = 4 + 5 ∧
    (digits 65556 4 65560 5 0).aAddr.toNat + (9 : Word).toNat ≤ 65565 := by decide

theorem witness_SingleBitFlipChangesCrc32 :
    ∃ t, exec .verify (digits 0 0 0 0 1) = .next t ∧ t.crc ≠ (digits 0 0 0 0 1).expect := ⟨_, rfl, by decide⟩

/-- The last register offset, and the last window byte. -/
theorem witness_host_accesses :
    0xFFFC % 4 = 0 ∧ 0xFFFC < 0x10000 ∧ 65564 < State.reset.params.bufCap ∧
    (at_ 0 0 0 [(65564, 0x5A)]).byteAt 65564 = some 0x5A := by decide

theorem witness_AccessRefusedExactlyWhereTheMapSaysSo :
    (∃ r, takeArrival (.access (.read 32 0x10000)) State.reset = .refused r) ∧
    legalAccess State.reset.params 32 0xFFFC ∧ legalAccess State.reset.params 8 (0x10000 + 65564) :=
  ⟨⟨_, rfl⟩, .inl ⟨rfl, 0xFFFC, by decide, by decide, by decide⟩, .inr ⟨rfl, 65564, by decide, by decide⟩⟩

/-- A read of a written window byte, and a read of a register. -/
theorem witness_HostReadHasNoSideEffect :
    (∃ t, takeArrival (.access (.read 8 0x10000)) (at_ 0 0 0 [(0, 1)]) = .next t ∧
      (at_ 0 0 0 [(0, 1)]).byteAt 0 = some 1) ∧
    (∃ t, takeArrival (.access (.read 32 4)) State.reset = .next t) := ⟨⟨_, rfl, rfl⟩, ⟨_, rfl⟩⟩

theorem witness_PutcrcAppendsTheChecksum :
    ∃ h : HostSystem, h.block.pos.toNat + 4 ≤ h.block.lim.toNat :=
  ⟨{ lines := [], line := 0, todo := [], vars := [], block := State.reset }, by decide⟩

end Sys2Proof.Tests
end

section
/-! SUPPORT. What a command word and one arrival at the port can do to BUF, the parameters, LIM and STATUS:
the inversions on which every statement about all steps rests. -/

namespace Sys2Proof.Machine

variable {s t : State}

/-! ## A command -/

/-- A command that answered `t` failed, with STATUS alone changed, or completed. -/
theorem exec_eq_next {i : Instr} (h : exec i s = .next t) :
    (∃ e, e ≠ .eNone ∧ t = { s with status := statusFailed e }) ∨ Completed i s t := by
  obtain ⟨u, hu, hout⟩ := exec_outcomes i s
  cases hu.symm.trans h
  exact hout.imp_left fun ⟨e, hne, _, ht⟩ => ⟨e, hne, ht⟩

/-- A command word that left `t` failed, with STATUS alone changed, or its command completed. -/
theorem performCommand_eq_next {w : Word} (h : performCommand w s = .next t) :
    (∃ e, e ≠ .eNone ∧ t = { s with status := statusFailed e }) ∨
    ∃ i, decode w = .ok i ∧ Completed i s t := by
  rcases performCommand_cases w s with ⟨_, -, he⟩ | ⟨i, hd, he⟩
  · cases he.symm.trans h
    exact .inl ⟨.eIllegal, nofun, rfl⟩
  · exact (exec_eq_next (he.symm.trans h)).imp_right fun hc => ⟨i, hd, hc⟩

/-- What no command writes (10_state.md R14, R20, R23 to R25). -/
theorem Completed.kept {i : Instr} (h : Completed i s t) :
    t.lim = s.lim ∧ t.expect = s.expect ∧ t.aAddr = s.aAddr ∧ t.aLen = s.aLen ∧
    t.bAddr = s.bAddr ∧ t.bLen = s.bLen ∧ t.params = s.params ∧ t.arrivals = s.arrivals ∧
    t.returned = s.returned := by
  refine ⟨?_, ?_, ?_, ?_, ?_, ?_, ?_, ?_, ?_⟩ <;> rw [h.frame]

/-- Of the commands, only PUTw change BUF (10_state.md R12). -/
theorem Completed.put_of_buf_ne {i : Instr} (h : Completed i s t) (hne : t.buf ≠ s.buf) :
    i ∈ [Instr.put8, .put16, .put32, .put64] := by
  obtain ⟨_, hi, -⟩ := h.buf.resolve_left hne
  exact hi

/-! ## An arrival -/

/-- What a host access leaves that writes neither CMD nor a window byte: BUF and the parameters stand, LIM
may take a clamped value and STATUS a host-written one. -/
structure RegisterAccess (s t : State) : Prop where
  buf : t.buf = s.buf
  params : t.params = s.params
  lim : t.lim = s.lim ∨ ∃ v, t.lim = clampLim v s
  status : t.status = s.status ∨ ∃ v, t.status = statusWritten v s.status

/-- Every way an arrival that is not refused can go. -/
inductive Taken (s : State) : Arrival → State → Prop
  | register {a : Access} {t : State} : RegisterAccess s t → Taken s (.access a) t
  | command {w : Word} {t : State} : performCommand w s = .next t →
      Taken s (.access (.write 32 s.params.base w)) t
  | window {j : Nat} {v : Word} : j < s.params.bufCap →
      Taken s (.access (.write 8 (s.params.base + 0x10000 + j) v)) (memWrite j [v.setWidth 8] s)
  | reset : Taken s .reset (resetRegisters s)
  | powerUp : Taken s .powerUp (powerUp s)

/-- CMD stands at offset 0 alone (10_state.md R13). -/
theorem regAt_eq_cmd {o : Nat} (h : regAt o = some .cmd) : o = 0 := by
  unfold regAt at h
  split at h <;> cases h
  rfl

/-- A host read, where it is not refused. -/
theorem hostAccess_read_registerAccess {bits addr : Nat} (h : hostAccess (.read bits addr) s = .next t) :
    RegisterAccess s t := by
  rcases hostAccess_read_cases bits addr s with ⟨_, -, he⟩ | ⟨_, _, -, he⟩ | ⟨_, -, he⟩ <;>
    cases he.symm.trans h
  · exact ⟨rfl, rfl, .inl rfl, .inl rfl⟩
  · exact ⟨rfl, rfl, .inl rfl, .inl rfl⟩

/-- A host write to any register but CMD (42_control.md R85). -/
theorem writeReg_registerAccess {r : Reg} (hr : r ≠ .cmd) {v : Word} (h : writeReg r v s = .next t) :
    RegisterAccess s t := by
  cases r with
  | cmd => exact absurd rfl hr
  | status => cases h; exact ⟨rfl, rfl, .inl rfl, .inr ⟨v, rfl⟩⟩
  | lim => cases h; exact ⟨rfl, rfl, .inr ⟨v, rfl⟩, .inl rfl⟩
  | _ => cases h; exact ⟨rfl, rfl, .inl rfl, .inl rfl⟩

/-- A host write at a register offset is a command word at offset 0, or an access that touches neither BUF
nor the parameters. -/
theorem writeOffset_cases {o : Nat} {v : Word} (h : writeOffset o v s = .next t) :
    (o = 0 ∧ performCommand v s = .next t) ∨ RegisterAccess s t := by
  unfold writeOffset at h
  split at h
  next r ho =>
    by_cases hr : r = .cmd
    · subst hr
      exact .inl ⟨regAt_eq_cmd ho, h⟩
    · exact .inr (writeReg_registerAccess hr h)
  next =>
    cases h
    exact .inr ⟨rfl, rfl, .inl rfl, .inl rfl⟩

theorem takeArrival_taken {x : Arrival} (h : takeArrival x s = .next t) : Taken s x t := by
  cases x with
  | reset => cases h; exact .reset
  | powerUp => cases h; exact .powerUp
  | access a =>
    cases a with
    | read bits addr => exact .register (hostAccess_read_registerAccess h)
    | write bits addr v =>
      rcases hostAccess_write_cases bits addr v s with ⟨o, hr, he⟩ | ⟨j, hr, he⟩ | ⟨_, -, he⟩
      · obtain ⟨rfl, rfl, -, -⟩ := route_eq_register hr
        rcases writeOffset_cases (he.symm.trans h) with ⟨rfl, hc⟩ | hq
        · exact .command hc
        · exact .register hq
      · obtain ⟨rfl, rfl, hj⟩ := route_eq_window hr
        cases he.symm.trans h
        exact .window hj
      · cases he.symm.trans h

end Sys2Proof.Machine
end

section
/-! SUPPORT. The invariant `State.Inv`: its parts, and that every arrival keeps it. -/

namespace Sys2Proof.Machine

variable {s t : State}

/-- BUF in canonical form with no index at or past `cap` (10_state.md R12). -/
def Memory.Within (cap : Nat) (m : Memory) : Prop := Memory.wf m ∧ ∀ c ∈ m, c.1 < cap

/-- ERR is one of the codes (60_exceptions.md R90), and MATCH is 1 only beside ERR = 0. -/
def Status.Legal (st : Status) : Prop := st.err.toNat ≤ 4 ∧ (st.matched = true → st.err = 0#4)

theorem Memory.insertAll_within {cap a : Nat} {bs : List Byte} {m : Memory} (hm : Memory.Within cap m)
    (h : a + bs.length ≤ cap) : Memory.Within cap (Memory.insertAll a bs m) := by
  obtain ⟨hwf, hin⟩ := hm
  refine ⟨Memory.insertAll_wf hwf a bs, fun c hc => ?_⟩
  rcases Memory.mem_insertAll hc with ⟨-, hlt⟩ | hc
  · exact Nat.lt_of_lt_of_le hlt h
  · exact hin c hc

theorem statusCompleted_legal (m : Bool) (st : Status) : (statusCompleted m st).Legal :=
  ⟨Nat.zero_le 4, fun _ => rfl⟩

theorem statusFailed_legal (e : ErrCode) : (statusFailed e).Legal :=
  ⟨by cases e <;> decide, nofun⟩

/-- A host write of STATUS reaches STICKY alone (10_state.md R18). -/
theorem Status.Legal.statusWritten {st : Status} (h : st.Legal) (v : Word) : (statusWritten v st).Legal := h

/-- LIM never passes BUF_CAP (10_state.md R20, R28). -/
theorem clampLim_le (v : Word) (s : State) : (clampLim v s).toNat ≤ s.params.bufCap := by
  rw [clampLim, BitVec.toNat_ofNat]
  exact (Nat.mod_le _ _).trans (Nat.min_le_right _ _)

theorem State.Inv.within (hs : s.Inv) : Memory.Within s.params.bufCap s.buf := ⟨hs.sorted, hs.inside⟩

theorem State.Inv.legal (hs : s.Inv) : s.status.Legal := ⟨hs.err, hs.matched⟩

/-- A next state meets the invariant where its parameters stand and its BUF, LIM and STATUS are legal. -/
theorem State.Inv.next (hs : s.Inv) (hp : t.params = s.params) (hb : Memory.Within s.params.bufCap t.buf)
    (hl : t.lim.toNat ≤ s.params.bufCap) (hst : t.status.Legal) : t.Inv := by
  obtain ⟨hwf, hin⟩ := hb
  obtain ⟨herr, hmatched⟩ := hst
  exact ⟨hp ▸ hs.params, hwf, hp ▸ hin, hp ▸ hl, herr, hmatched⟩

theorem State.Inv.setArrivals (hs : s.Inv) (l : List Arrival) : (s.setArrivals l).Inv :=
  hs.next rfl hs.within hs.lim hs.legal

/-- A command's PUT ends at or below LIM, and LIM at or below BUF_CAP. -/
theorem Completed.inv {i : Instr} (h : Completed i s t) (hs : s.Inv) : t.Inv := by
  obtain ⟨hl, -, -, -, -, -, hp, -, -⟩ := h.kept
  refine hs.next hp ?_ (hl ▸ hs.lim) ?_
  · rcases h.buf with hb | ⟨w, -, hfit, hb⟩ <;> rw [hb]
    · exact hs.within
    · exact Memory.insertAll_within hs.within (by rw [encodeBytes_length]; exact hfit.trans hs.lim)
  · obtain ⟨m, -, hm⟩ := h.status
    rw [hm]
    exact statusCompleted_legal m s.status

theorem performCommand_inv {w : Word} (hs : s.Inv) (h : performCommand w s = .next t) : t.Inv := by
  rcases performCommand_eq_next h with ⟨e, -, rfl⟩ | ⟨_, -, hc⟩
  · exact hs.next rfl hs.within hs.lim (statusFailed_legal e)
  · exact hc.inv hs

theorem RegisterAccess.inv (h : RegisterAccess s t) (hs : s.Inv) : t.Inv := by
  refine hs.next h.params (h.buf ▸ hs.within) ?_ ?_
  · rcases h.lim with hl | ⟨v, hl⟩ <;> rw [hl]
    · exact hs.lim
    · exact clampLim_le v s
  · rcases h.status with hst | ⟨v, hst⟩ <;> rw [hst]
    · exact hs.legal
    · exact hs.legal.statusWritten v

theorem resetRegisters_inv (hs : s.Inv) : (resetRegisters s).Inv := by
  have hlim : (BitVec.ofNat 32 s.params.bufCap).toNat ≤ s.params.bufCap := by
    rw [BitVec.toNat_ofNat]
    exact Nat.mod_le _ _
  exact hs.next rfl hs.within hlim (statusCompleted_legal false { s.status with sticky := false })

theorem powerUp_inv (hs : s.Inv) : (powerUp s).Inv :=
  have hr := resetRegisters_inv hs
  hr.next rfl ⟨.nil, nofun⟩ hr.lim hr.legal

theorem Taken.inv {x : Arrival} (h : Taken s x t) (hs : s.Inv) : t.Inv := by
  cases h with
  | register h => exact h.inv hs
  | command h => exact performCommand_inv hs h
  | window hj => exact hs.next rfl (Memory.insertAll_within hs.within hj) hs.lim hs.legal
  | reset => exact resetRegisters_inv hs
  | powerUp => exact powerUp_inv hs

/-- Settles O18: the step takes nothing, or an arrival, each kind of which keeps the invariant. -/
theorem stepKeepsTheStateLegal : Obligations.StepKeepsTheStateLegal := by
  intro s t hs h
  rcases step_cases h with ⟨-, rfl⟩ | ⟨x, rest, -, hx⟩
  · exact hs
  · exact (takeArrival_taken hx).inv (hs.setArrivals rest)

/-- Settles O17: the defaults are within their bounds and no byte is written. -/
theorem resetStateIsLegal : Obligations.ResetStateIsLegal where
  params := by decide
  sorted := .nil
  inside := nofun
  lim := by decide
  err := by decide
  matched := nofun

end Sys2Proof.Machine
end

section
/-! SUPPORT. What steps and commands leave unchanged: the parameters, BUF and the registers. -/

namespace Sys2Proof.Machine

variable {s t : State}

theorem performCommand_params {w : Word} (h : performCommand w s = .next t) : t.params = s.params := by
  rcases performCommand_eq_next h with ⟨_, -, rfl⟩ | ⟨_, -, hc⟩
  · rfl
  · obtain ⟨-, -, -, -, -, -, hp, -, -⟩ := hc.kept
    exact hp

theorem Taken.params_eq {x : Arrival} (h : Taken s x t) : t.params = s.params := by
  cases h with
  | register h => exact h.params
  | command h => exact performCommand_params h
  | window | reset | powerUp => rfl

/-- Settles O20: no arrival of any kind writes the parameters. -/
theorem stepKeepsTheParameters : Obligations.StepKeepsTheParameters := by
  intro s t h
  rcases step_cases h with ⟨-, rfl⟩ | ⟨_, _, -, hx⟩
  · rfl
  · exact (takeArrival_taken hx).params_eq

/-- Settles O24: a failing command changes STATUS alone; for one that completes, `Completed` names the
commands that write each register. -/
theorem commandWritesOnlyItsRegisters : Obligations.CommandWritesOnlyItsRegisters := by
  intro i s t h
  rcases exec_eq_next h with ⟨e, -, rfl⟩ | hc
  · exact ⟨(absurd rfl ·), (absurd rfl ·), (absurd rfl ·), (absurd rfl ·), (absurd rfl ·), nofun,
      rfl, rfl, rfl, rfl, rfl, rfl, rfl, rfl, rfl⟩
  · refine ⟨hc.put_of_buf_ne, hc.data.resolve_left, hc.crc.resolve_left, hc.spanAddr.resolve_left,
      fun hne => ?_, fun hm => ?_, hc.kept⟩
    · rcases hc.cursor with ⟨k, hk, -, -⟩ | ⟨-, hpos⟩
      · exact ⟨k, hk⟩
      · exact absurd hpos hne
    · obtain ⟨m, hverify, hst⟩ := hc.status
      rw [hst] at hm
      exact hverify hm

/-- The arrivals that change BUF. -/
theorem Taken.of_buf_ne {x : Arrival} (h : Taken s x t) (hne : t.buf ≠ s.buf) :
    x = .powerUp ∨
      (∃ j v, j < s.params.bufCap ∧ x = .access (.write 8 (s.params.base + 0x10000 + j) v)) ∨
      (∃ w, x = .access (.write 32 s.params.base w) ∧
        decode w ∈ [Except.ok Instr.put8, .ok .put16, .ok .put32, .ok .put64]) := by
  cases h with
  | register h => exact absurd h.buf hne
  | @command w _ h =>
    rcases performCommand_eq_next h with ⟨_, -, rfl⟩ | ⟨i, hd, hc⟩
    · exact absurd rfl hne
    · refine .inr (.inr ⟨w, rfl, ?_⟩)
      rw [hd]
      exact List.mem_map_of_mem (hc.put_of_buf_ne hne)
  | @window j v hj => exact .inr (.inl ⟨j, v, hj, rfl⟩)
  | reset => exact absurd rfl hne
  | powerUp => exact .inl rfl

/-- Settles O25: the step took an arrival, and `Taken.of_buf_ne` says which ones change BUF. -/
theorem bufChangesOnlyByPutWindowWriteOrPowerUp : Obligations.BufChangesOnlyByPutWindowWriteOrPowerUp := by
  intro s t h hne
  rcases step_cases h with ⟨-, rfl⟩ | ⟨x, rest, hs, hx⟩
  · exact absurd rfl hne
  · exact ⟨x, rest, hs, (takeArrival_taken hx).of_buf_ne hne⟩

/-! ## Commands that do not read BUF -/

/-- Over any two contents of BUF the operation leaves the same registers; and unless it stands for a PUT, it
leaves each BUF as it was. -/
def IgnoresBuf (i : Instr) (f : State → Result) (s : State) (m : Memory) : Prop :=
  ∃ t u, f s = .next t ∧ f { s with buf := m } = .next u ∧ u = { t with buf := u.buf } ∧
    (i ∉ [Instr.put8, .put16, .put32, .put64] → t.buf = s.buf ∧ u.buf = m)

/-- Where PUTw writes, and what, does not depend on BUF. -/
theorem putInt_ignoresBuf {i : Instr} (hi : i ∈ [Instr.put8, .put16, .put32, .put64]) (w : Nat) (s : State)
    (m : Memory) : IgnoresBuf i (putInt w) s m := by
  rcases putInt_cases w s with ⟨hf, he⟩ | ⟨hf, he⟩
  · obtain ⟨-, hu⟩ := (putInt_cases w { s with buf := m }).resolve_right fun hn => hn.1 hf
    exact ⟨_, _, he, hu, rfl, absurd hi⟩
  · obtain ⟨-, hu⟩ := (putInt_cases w { s with buf := m }).resolve_left fun hn => hf hn.1
    exact ⟨_, _, he, hu, rfl, absurd hi⟩

theorem takeSpan_ignoresBuf (i : Instr) (e : ErrCode) (n : Nat) (s : State) (m : Memory) :
    IgnoresBuf i (takeSpan e n) s m := by
  rcases takeSpan_cases e n s with ⟨hf, he⟩ | ⟨hf, he⟩
  · obtain ⟨-, hu⟩ := (takeSpan_cases e n { s with buf := m }).resolve_right fun hn => hn.1 hf
    exact ⟨_, _, he, hu, rfl, fun _ => ⟨rfl, rfl⟩⟩
  · obtain ⟨-, hu⟩ := (takeSpan_cases e n { s with buf := m }).resolve_left fun hn => hf hn.1
    exact ⟨_, _, he, hu, rfl, fun _ => ⟨rfl, rfl⟩⟩

/-- Settles O26: NOP touches STATUS alone, and PUTw and the span commands test POS and LIM alone. -/
theorem putAndSpanCommandsDoNotReadBuf : Obligations.PutAndSpanCommandsDoNotReadBuf := by
  rintro i s m (hi | ⟨n, rfl | rfl⟩)
  · rcases List.mem_cons.1 hi with rfl | hput
    · exact ⟨_, _, rfl, rfl, rfl, fun _ => ⟨rfl, rfl⟩⟩
    · obtain ⟨w, hw⟩ : ∃ w, exec i = putInt w := by
        simp only [List.mem_cons, List.not_mem_nil, or_false] at hput
        rcases hput with rfl | rfl | rfl | rfl <;> exact ⟨_, rfl⟩
      rw [hw]
      exact putInt_ignoresBuf hput w s m
  · exact takeSpan_ignoresBuf _ .eOverflow n s m
  · exact takeSpan_ignoresBuf _ .eTrunc n s m

end Sys2Proof.Machine
end

section
/-! SUPPORT. The reset state's values, and the step that takes a command word. -/

namespace Sys2Proof.Machine

/-- Settles O1: the row of each register, and an empty BUF. -/
theorem powerUpLeavesTheResetValues : Obligations.PowerUpLeavesTheResetValues :=
  ⟨rfl, by decide, rfl, by decide, rfl, rfl, rfl, rfl, rfl, rfl, rfl, rfl, Memory.lookup_nil⟩

/-- A step whose arrival is a command word performs it, with the arrival taken off (10_state.md R16). -/
theorem step_of_cmdWrite {s : State} {w : Word} {rest : List Arrival}
    (h : s.arrivals = cmdWrite s.params w :: rest) : step s = performCommand w { s with arrivals := rest } := by
  unfold step
  rw [h]
  exact takeArrival_cmdWrite w (s.setArrivals rest)

theorem performCommand_of_ok {w : Word} {i : Instr} (h : decode w = .ok i) (s : State) :
    performCommand w s = exec i s := by
  rw [performCommand, h]

theorem performCommand_of_error {w : Word} {e : DecodeError} (h : decode w = .error e) (s : State) :
    performCommand w s = raise .eIllegal s := by
  rw [performCommand, h]

theorem decodeTableWord_eq_some {nbits w : Nat} {i : Instr} :
    decodeTableWord nbits w = some i ↔ decode (BitVec.ofNat 32 (w % 2 ^ nbits)) = .ok i := by
  unfold decodeTableWord
  split <;> simp_all

/-- Settles O15: the step takes the word off, and `performCommand` decodes it. -/
theorem stepPerformsTheCommandWord : Obligations.StepPerformsTheCommandWord := by
  refine ⟨fun s w rest i hs hd => ?_, fun s w rest e hs hd => ?_, fun s nbits w i hd => ?_⟩
  · rw [step_of_cmdWrite hs, performCommand_of_ok hd]
  · rw [step_of_cmdWrite hs, performCommand_of_error hd, raise_eq]
    rfl
  · exact (step_of_cmdWrite rfl).trans (performCommand_of_ok (decodeTableWord_eq_some.1 hd) s)

end Sys2Proof.Machine
end

section
/-! SUPPORT. The port: every host access is refused or answers a next state with the arrivals untouched, and
what a host read leaves and returns (spec/20_memory.md R31, R32, R37, R39, R41). -/

namespace Sys2Proof.Machine

variable {s t : State}

/-! ## Refused, or taken with the arrivals untouched -/

theorem performCommand_next (w : Word) (s : State) :
    ∃ t, performCommand w s = .next t ∧ t.arrivals = s.arrivals := by
  rcases performCommand_cases w s with ⟨_, -, he⟩ | ⟨i, -, he⟩
  · exact ⟨_, he, rfl⟩
  · obtain ⟨t, ht, ⟨e, -, -, rfl⟩ | hc⟩ := exec_outcomes i s
    · exact ⟨_, he.trans ht, rfl⟩
    · obtain ⟨-, -, -, -, -, -, -, harr, -⟩ := hc.kept
      exact ⟨t, he.trans ht, harr⟩

theorem writeReg_next (r : Reg) (v : Word) (s : State) :
    ∃ t, writeReg r v s = .next t ∧ t.arrivals = s.arrivals := by
  cases r with
  | cmd => exact performCommand_next v s
  | _ => exact ⟨_, rfl, rfl⟩

theorem writeOffset_next (o : Nat) (v : Word) (s : State) :
    ∃ t, writeOffset o v s = .next t ∧ t.arrivals = s.arrivals := by
  unfold writeOffset
  split
  · exact writeReg_next _ v s
  · exact ⟨s, rfl, rfl⟩

/-- The address map alone decides whether an access is refused: a reached register or window byte always
answers. -/
theorem hostAccess_cases (a : Access) (s : State) :
    (∃ r, route s.params a.bits a.addr = .refuse r ∧ hostAccess a s = .refused r) ∨
    ((∀ r, route s.params a.bits a.addr ≠ .refuse r) ∧
      ∃ t, hostAccess a s = .next t ∧ t.arrivals = s.arrivals) := by
  cases a with
  | read bits addr =>
    rcases hostAccess_read_cases bits addr s with ⟨o, hr, he⟩ | ⟨i, k, hr, he⟩ | ⟨r, hr, he⟩
    · exact .inr ⟨fun _ h => (nomatch hr.symm.trans h), _, he, rfl⟩
    · exact .inr ⟨fun _ h => (nomatch hr.symm.trans h), _, he, rfl⟩
    · exact .inl ⟨r, hr, he⟩
  | write bits addr v =>
    rcases hostAccess_write_cases bits addr v s with ⟨o, hr, he⟩ | ⟨i, hr, he⟩ | ⟨r, hr, he⟩
    · exact .inr ⟨fun _ h => (nomatch hr.symm.trans h), he ▸ writeOffset_next o v s⟩
    · exact .inr ⟨fun _ h => (nomatch hr.symm.trans h), _, he, rfl⟩
    · exact .inl ⟨r, hr, he⟩

theorem hostAccess_refused_iff (a : Access) (s : State) :
    (∃ r, hostAccess a s = .refused r) ↔ ∃ r, route s.params a.bits a.addr = .refuse r := by
  rcases hostAccess_cases a s with ⟨r, hr, he⟩ | ⟨hr, t, he, -⟩
  · exact ⟨fun _ => ⟨r, hr⟩, fun _ => ⟨r, he⟩⟩
  · exact ⟨fun ⟨_, h⟩ => (nomatch he.symm.trans h), fun ⟨r, h⟩ => absurd h (hr r)⟩

/-- Settles O44: an access is refused exactly where `route` refuses it, and by `legalAccess_iff` that is
exactly where the map does not allow it. -/
theorem accessRefusedExactlyWhereTheMapSaysSo : Obligations.AccessRefusedExactlyWhereTheMapSaysSo := by
  intro s a hp
  rw [legalAccess_iff hp, not_forall_not]
  exact hostAccess_refused_iff a s

/-- Taking an arrival does not touch the arrivals still to come. -/
theorem takeArrival_arrivals {x : Arrival} (h : takeArrival x s = .next t) : t.arrivals = s.arrivals := by
  cases x with
  | reset => cases h; rfl
  | powerUp => cases h; rfl
  | access a =>
    rcases hostAccess_cases a s with ⟨_, -, he⟩ | ⟨-, u, he, harr⟩
    · cases he.symm.trans h
    · cases he.symm.trans h
      exact harr

/-- Settles O16: the step takes the first arrival off, and `takeArrival` leaves the others. -/
theorem stepTakesArrivalsInOrder : Obligations.StepTakesArrivalsInOrder := by
  refine ⟨fun s hs => ?_, fun s t h hne => ?_⟩
  · rw [step, hs]
  · rcases step_cases h with ⟨hs, -⟩ | ⟨x, rest, hs, hx⟩
    · exact absurd hs hne
    · exact ⟨x, hs.trans (congrArg (x :: ·) (takeArrival_arrivals hx).symm)⟩

/-! ## Host reads -/

/-- No register's value depends on what has been returned. -/
@[simp] theorem readOffset_pushReturned (o : Nat) (r : Returned) (s : State) :
    readOffset o (s.pushReturned r) = readOffset o s := by
  unfold readOffset
  split
  next r _ => cases r <;> rfl
  next => rfl

theorem readByte_of_byteAt {a : Nat} {b : Byte} (h : s.byteAt a = some b) : readByte a s = (b, s) := by
  rcases readByte_cases a s with ⟨b', hb, he⟩ | ⟨hn, -⟩
  · cases hb.symm.trans h
    exact he
  · cases hn.symm.trans h

theorem hostAccess_read_register {bits addr o : Nat} (h : route s.params bits addr = .register o) :
    hostAccess (.read bits addr) s = .next (s.pushReturned (.word (readOffset o s))) := by
  simp only [hostAccess, h]

theorem hostAccess_read_written {bits addr i : Nat} {b : Byte} (h : route s.params bits addr = .window i)
    (hb : s.byteAt i = some b) : hostAccess (.read bits addr) s = .next (s.pushReturned (.byte b)) := by
  simp only [hostAccess, h, readWindow, readByte_of_byteAt hb]

theorem hostAccess_read_frame {bits addr : Nat} (h : hostAccess (.read bits addr) s = .next t) :
    t = { s with returned := t.returned, draws := t.draws } := by
  rcases hostAccess_read_cases bits addr s with ⟨_, -, he⟩ | ⟨_, _, -, he⟩ | ⟨_, -, he⟩ <;>
    cases he.symm.trans h
  · rfl
  · rfl

/-- A read that is not of an unwritten byte only returns its value, and returns it again from the state it
leaves (20_memory.md R39). -/
theorem hostAccess_read_repeated {bits addr : Nat} (h : hostAccess (.read bits addr) s = .next t)
    (hw : ∀ i, addr = s.params.base + 0x10000 + i → ∃ b, s.byteAt i = some b) :
    ∃ v, t = s.pushReturned v ∧ hostAccess (.read bits addr) t = .next (t.pushReturned v) := by
  cases hr : route s.params bits addr with
  | register o =>
    cases (hostAccess_read_register hr).symm.trans h
    refine ⟨_, rfl, ?_⟩
    rw [hostAccess_read_register (s := s.pushReturned _) hr, readOffset_pushReturned]
  | window i =>
    obtain ⟨-, ha, -⟩ := route_eq_window hr
    obtain ⟨b, hb⟩ := hw i ha
    cases (hostAccess_read_written hr hb).symm.trans h
    exact ⟨_, rfl, hostAccess_read_written hr hb⟩
  | refuse r => simp [hostAccess, hr] at h

/-- Settles O45: a read's frame, and the read repeated. -/
theorem hostReadHasNoSideEffect : Obligations.HostReadHasNoSideEffect := by
  intro s t bits addr h
  refine ⟨hostAccess_read_frame h, fun hw => ?_⟩
  obtain ⟨v, rfl, hagain⟩ := hostAccess_read_repeated h hw
  exact ⟨v, _, rfl, hagain, rfl⟩

end Sys2Proof.Machine
end

section
/-! SUPPORT. A GET inside the bytes of a PUT (spec/20_memory.md R35; 40_byte_order.md R58, R70). The PUT
writes k + m + l bytes, and the GET reads the m of them after the first k. -/

namespace Sys2Proof.Machine

/-- A read of bytes that have all been written gives those bytes and draws nothing. -/
theorem memRead_of_byteAt {a : Nat} {bs : List Byte} {s : State}
    (h : ∀ j (hj : j < bs.length), s.byteAt (a + j) = some bs[j]) : memRead a bs.length s = (bs, s) :=
  Prod.ext
    (List.ext_getElem (memRead_length ..) fun j h₁ hj => memRead_mayRead a bs.length s j h₁ bs[j] (h j hj))
    (memRead_written fun j hj => ⟨bs[j], h j hj⟩)

/-- A PUT that fits completes, and its bytes stand in BUF from the old POS on. -/
theorem putInt_byteAt {w : Nat} {s : State} (hfit : s.pos.toNat + w ≤ s.lim.toNat) :
    ∃ t, putInt w s = .next t ∧ t.lim = s.lim ∧ t.status.err = 0#4 ∧
      ∀ j (hj : j < (encodeBytes w s.data).length),
        t.byteAt (s.pos.toNat + j) = some (encodeBytes w s.data)[j] := by
  obtain ⟨-, he⟩ := (putInt_cases w s).resolve_right fun h => h.1 hfit
  exact ⟨_, he, rfl, rfl, fun j hj => Memory.lookup_insertAll_inside hj s.buf⟩

/-- A GET of written bytes: DATA holds what they decode to, and nothing is drawn. -/
theorem getInt_of_byteAt {bs : List Byte} {s : State} (hfit : s.pos.toNat + bs.length ≤ s.lim.toNat)
    (h : ∀ j (hj : j < bs.length), s.byteAt (s.pos.toNat + j) = some bs[j]) :
    getInt bs.length s = .next { s with
      data := decodeBytes bs
      pos := BitVec.ofNat 32 (s.pos.toNat + bs.length)
      status := statusCompleted false s.status } := by
  obtain ⟨-, hget⟩ := (getInt_cases bs.length s).resolve_right fun hn => hn.1 hfit
  rw [hget, memRead_of_byteAt h]

/-- The m bytes after the first k of an encoded value are those of the value without its last l bytes. -/
theorem encodeBytes_getElem_inner {k m l j : Nat} (v : DWord)
    (hkj : k + j < (encodeBytes (k + m + l) v).length) (hj : j < (bytesBE (v.toNat / 256 ^ l) m).length) :
    (encodeBytes (k + m + l) v)[k + j] = (bytesBE (v.toNat / 256 ^ l) m)[j] := by
  have hjm : j < m := by rwa [bytesBE_length] at hj
  have hweight : k + m + l - 1 - (k + j) = l + (m - 1 - j) := by omega
  simp only [encodeBytes, bytesBE_get, hweight, Nat.pow_add, Nat.div_div_eq_div_mul]

theorem decodeBytes_inner (v : DWord) (l m : Nat) :
    decodeBytes (bytesBE (v.toNat / 256 ^ l) m) = (v.extractLsb' (8 * l) (8 * m)).setWidth 64 := by
  have h256 (n : Nat) : (256 : Nat) ^ n = 2 ^ (8 * n) := by rw [Nat.pow_mul]
  apply BitVec.eq_of_toNat_eq
  simp only [decodeBytes, beNat_bytesBE, h256, BitVec.toNat_ofNat, BitVec.toNat_setWidth,
    BitVec.extractLsb'_toNat, Nat.shiftRight_eq_div_pow]

/-- After a PUT of k + m + l bytes of DATA and a host write of the old POS + k to POS, a GET of m bytes
leaves in DATA the m bytes above the lowest l, zero-extended. -/
theorem getInt_inside_putInt {k m l : Nat} {s : State} {q : Word}
    (hfit : s.pos.toNat + (k + m + l) ≤ s.lim.toNat) (hq : q.toNat = s.pos.toNat + k) :
    ∃ s1 s3, putInt (k + m + l) s = .next s1 ∧ getInt m (s1.setPos q) = .next s3 ∧
      s3.data = (s.data.extractLsb' (8 * l) (8 * m)).setWidth 64 ∧ s3.pos.toNat = q.toNat + m ∧
      s1.status.err = 0#4 ∧ s3.status.err = 0#4 := by
  obtain ⟨s1, hput, hlim, herr, hbytes⟩ := putInt_byteAt hfit
  have hlen : (bytesBE (s.data.toNat / 256 ^ l) m).length = m := bytesBE_length ..
  have hroom : (s1.setPos q).pos.toNat + m ≤ (s1.setPos q).lim.toNat := by
    simp only [State.setPos_fields, hlim, hq]
    omega
  have hinner : ∀ j (hj : j < (bytesBE (s.data.toNat / 256 ^ l) m).length),
      (s1.setPos q).byteAt ((s1.setPos q).pos.toNat + j) = some (bytesBE (s.data.toNat / 256 ^ l) m)[j] := by
    intro j hj
    have hkj : k + j < (encodeBytes (k + m + l) s.data).length := by
      rw [encodeBytes_length]
      omega
    rw [← encodeBytes_getElem_inner s.data hkj hj, ← hbytes (k + j) hkj, ← Nat.add_assoc, ← hq]
    rfl
  have hget := getInt_of_byteAt (by rwa [hlen]) hinner
  rw [hlen] at hget
  exact ⟨s1, _, hput, hget, decodeBytes_inner s.data l m, advance_toNat hroom, herr, rfl⟩

/-- Settles O31: GET16 reads the two bytes after the first of the four that PUT32 wrote. -/
theorem narrowGetSeesTheBytesOfAWidePut : Obligations.NarrowGetSeesTheBytesOfAWidePut := by
  intro s q hfit hq
  obtain ⟨s1, s3, hput, hget, hdata, -⟩ := getInt_inside_putInt (k := 1) (m := 2) (l := 1) hfit hq
  exact ⟨s1, s1.setPos q, s3, hput, rfl, hget, hdata⟩

end Sys2Proof.Machine
end

section
/-! SUPPORT. The decoder and the encoder are inverse, and the words the decoder refuses
(spec/30_encoding.md R46 to R51). -/

namespace Sys2Proof

variable {w : Word} {i : Instr}

/-- Settles O12: the span commands keep their length in ARG (`Laws.EncodeFields`), and the word of every
other command is a constant. -/
theorem decodeOfEncodeIsTheCommand : Obligations.DecodeOfEncodeIsTheCommand := by
  intro i hi
  cases i with
  | putspan n =>
    obtain ⟨hop, harg, hlen⟩ := Laws.EncodeFields.putspan n
    simp [decode, hop, harg, hlen hi n, Instr.opcode]
  | getspan n =>
    obtain ⟨hop, harg, hlen⟩ := Laws.EncodeFields.getspan n
    simp [decode, hop, harg, hlen hi n, Instr.opcode]
  | _ => rfl

/-- Settles O13: the command's opcode and argument are the two fields of its word. -/
theorem encodeOfDecodeIsTheWord : Obligations.EncodeOfDecodeIsTheWord := by
  intro w i h
  obtain ⟨hop, harg, hwf⟩ := decode_ok_fields h
  exact ⟨hwf, by rw [encode, hop, harg, ← word_eq_fields]⟩

/-- Settles O14: each word is a constant, on which the decoder runs. -/
theorem wordsOfTheOpcodeMapDecode : Obligations.WordsOfTheOpcodeMapDecode := by
  unfold Obligations.WordsOfTheOpcodeMapDecode
  decide

/-! ## Illegal words -/

/-- An illegal command word (30_encoding.md R49): a reserved OP, or a nonzero ARG on a command other than
PUTSPAN and GETSPAN. -/
def IllegalWord (w : Word) : Prop :=
  (0x0B ≤ (opField w).toNat ∧ (opField w).toNat ≤ 0x0F) ∨ 0x13 ≤ (opField w).toNat ∨
    (opField w ≠ 0x09#8 ∧ opField w ≠ 0x0A#8 ∧ argField w ≠ 0#24)

theorem requireZeroArg_error {e : DecodeError} (h : requireZeroArg w i = .error e) : argField w ≠ 0#24 := by
  intro h0
  rw [requireZeroArg, if_pos h0] at h
  cases h

theorem not_illegalWord_of_decode_ok (h : decode w = .ok i) : ¬ IllegalWord w := by
  obtain ⟨hop, harg, -⟩ := decode_ok_fields h
  unfold IllegalWord
  rw [← hop, ← harg]
  cases i <;> simp [Instr.opcode, Instr.argument]

theorem illegalWord_of_decode_error {e : DecodeError} (h : decode w = .error e) : IllegalWord w := by
  unfold decode at h
  split at h
  -- PUTSPAN and GETSPAN take every ARG.
  case h_10 | h_11 => cases h
  -- A reserved OP is none of the fourteen.
  case h_15 =>
    simp only [imp_false] at *
    unfold IllegalWord
    omega
  -- Every other command requires ARG to be 0.
  all_goals
    rename_i hop
    have hspan (op : BitVec 8) (hne : op.toNat ≠ (opField w).toNat) : opField w ≠ op :=
      fun heq => hne (congrArg _ heq.symm)
    exact .inr (.inr ⟨hspan _ (by simp [hop]), hspan _ (by simp [hop]), requireZeroArg_error h⟩)

/-- The decoder refuses the illegal words and no other. -/
theorem decode_error_iff : (∃ e, decode w = .error e) ↔ IllegalWord w := by
  constructor
  · rintro ⟨e, h⟩
    exact illegalWord_of_decode_error h
  · intro hw
    cases h : decode w with
    | error e => exact ⟨e, rfl⟩
    | ok i => exact absurd hw (not_illegalWord_of_decode_ok h)

namespace Machine

/-- Settles O11: the decoder's error on the illegal words, and its command on every other. -/
theorem illegalWordRaisesOnlyEIllegal : Obligations.IllegalWordRaisesOnlyEIllegal := by
  intro w s
  constructor
  · intro hw
    obtain ⟨e, he⟩ := decode_error_iff.2 hw
    exact performCommand_of_error he s
  · intro hlow hhigh harg
    have hlegal : ¬ IllegalWord w := by
      unfold IllegalWord
      tauto
    cases hd : decode w with
    | error e => exact absurd (illegalWord_of_decode_error hd) hlegal
    | ok i => exact ⟨i, rfl, (decode_ok_fields hd).1, performCommand_of_ok hd s⟩

end Machine
end Sys2Proof
end

section
/-! SUPPORT. What the two ends of a command leave in STATUS (spec/30_encoding.md R53, R54). -/

namespace Sys2Proof.Machine

variable {s t : State}

/-- A failure's code is one of the four of 60_exceptions.md R89. -/
theorem ErrCode.code_mem {e : ErrCode} (he : e ≠ .eNone) : e.code ∈ [1#4, 2#4, 3#4, 4#4] := by
  cases e with
  | eNone => exact absurd rfl he
  | _ => decide

theorem Completed.err {i : Instr} (h : Completed i s t) : t.status.err = 0#4 := by
  obtain ⟨m, -, hst⟩ := h.status
  rw [hst]
  rfl

theorem Completed.sticky {i : Instr} (h : Completed i s t) : t.status.sticky = s.status.sticky := by
  obtain ⟨m, -, hst⟩ := h.status
  rw [hst]
  rfl

theorem Completed.matched {i : Instr} (h : Completed i s t) (hi : i ≠ .verify) :
    t.status.matched = false := by
  obtain ⟨m, hverify, hst⟩ := h.status
  rw [hst]
  exact Bool.eq_false_iff.2 fun hm => hi (hverify hm)

/-- Settles O21: only a failed command leaves a nonzero ERR. -/
theorem failingCommandChangesOnlyStatus : Obligations.FailingCommandChangesOnlyStatus := by
  intro w s t h herr
  rcases performCommand_eq_next h with ⟨e, he, rfl⟩ | ⟨_, -, hc⟩
  · exact ⟨ErrCode.code_mem he, rfl⟩
  · exact absurd hc.err herr

/-- Settles O22: only a completed command leaves ERR = 0. -/
theorem successKeepsStickyAndClearsMatch : Obligations.SuccessKeepsStickyAndClearsMatch := by
  intro w s t h herr
  rcases performCommand_eq_next h with ⟨e, he, rfl⟩ | ⟨i, hd, hc⟩
  · have hcode : e.code = 0#4 := herr
    have := ErrCode.code_mem he
    rw [hcode] at this
    exact absurd this (by decide)
  · exact ⟨hc.sticky, fun hw => hc.matched fun hi => hw (hi ▸ hd)⟩

end Sys2Proof.Machine
end

section
/-! SUPPORT. The operations of `putcrc` in turn (spec/30_encoding.md R56). -/

namespace Sys2Proof.Machine

theorem issueAll_cons {o : HostOp} {h h' : HostSystem} (ho : issue o h = .next h') (os : List HostOp) :
    issueAll (o :: os) h = issueAll os h' := by
  rw [issueAll, ho]

/-- Byte j of `encode_w(v)` is the byte of v of weight 256^(w−1−j) (40_byte_order.md R58). -/
theorem encodeBytes_getElem {w j : Nat} {v : DWord} (hj : j < (encodeBytes w v).length) :
    (encodeBytes w v)[j] = v.extractLsb' (8 * (w - 1 - j)) 8 := by
  have h256 : (256 : Nat) ^ (w - 1 - j) = 2 ^ (8 * (w - 1 - j)) := by rw [Nat.pow_mul]
  apply BitVec.eq_of_toNat_eq
  simp only [encodeBytes, bytesBE_get, h256, BitVec.toNat_ofNat, BitVec.extractLsb'_toNat,
    Nat.shiftRight_eq_div_pow]

/-- Host writes of 0 to DATA_HI and of v to DATA_LO leave v, zero-extended. -/
theorem withDataLo_withDataHi_zero (v : Word) (d : DWord) :
    withDataLo v (withDataHi 0#32 d) = v.setWidth 64 := by
  have hhi : dataHi (withDataHi 0#32 d) = 0#32 := BitVec.extractLsb'_append_eq_left
  rw [withDataLo, hhi]
  exact (BitVec.setWidth_eq_append (by decide)).symm

/-- The value `rd` put into a host variable is the one `wr` writes from it. -/
theorem ofNat_evalExpr_var (x : Nat) (v : Word) (vars : List (Nat × Nat)) :
    BitVec.ofNat 32 (evalExpr ((x, v.toNat) :: vars) (.var x)) = v := by
  simp [evalExpr, hostVar]

/-- PUT32 of a zero-extended word, where it fits: the word's four bytes from the old POS on. -/
theorem execPut32_setWidth {s : State} {v : Word} (hfit : s.pos.toNat + 4 ≤ s.lim.toNat)
    (hdata : s.data = v.setWidth 64) :
    ∃ t, exec .put32 s = .next t ∧
      (∀ j, j < 4 → t.byteAt (s.pos.toNat + j) = some (v.extractLsb' (8 * (3 - j)) 8)) ∧
      t.pos.toNat = s.pos.toNat + 4 ∧ t.data = s.data ∧ t.crc = s.crc ∧ t.status.err = 0#4 := by
  obtain ⟨-, hput⟩ := (putInt_cases 4 s).resolve_right fun h => h.1 hfit
  refine ⟨_, hput, fun j hj => ?_, advance_toNat hfit, rfl, rfl, rfl⟩
  have hlen : j < (encodeBytes 4 s.data).length := by rwa [encodeBytes_length]
  calc Memory.lookup (s.pos.toNat + j) (Memory.insertAll s.pos.toNat (encodeBytes 4 s.data) s.buf)
      = some (encodeBytes 4 s.data)[j] := Memory.lookup_insertAll_inside hlen s.buf
    _ = some (v.extractLsb' (8 * (3 - j)) 8) := by
      rw [encodeBytes_getElem, hdata, BitVec.extractLsb'_setWidth_of_le (by omega)]

/-- Settles O46: `rd`, two `wr` and PUT32, which finds CRC, zero-extended, in DATA. -/
theorem putcrcAppendsTheChecksum : Obligations.PutcrcAppendsTheChecksum := by
  intro h x hfit
  have hdata : withDataLo (BitVec.ofNat 32 (evalExpr ((x, h.block.crc.toNat) :: h.vars) (.var x)))
      (withDataHi 0#32 h.block.data) = h.block.crc.setWidth 64 := by
    rw [ofNat_evalExpr_var, withDataLo_withDataHi_zero]
  obtain ⟨t, hput, hbytes, hpos, ht, hcrc, herr⟩ := execPut32_setWidth
    (s := ((h.block.pushReturned (.word h.block.crc)).setData _).setData _) hfit hdata
  refine ⟨{ h with vars := (x, h.block.crc.toNat) :: h.vars, block := t }, ?_, hbytes, hpos,
    ht.trans hdata, hcrc, herr⟩
  calc issueAll (expand (.putcrc x)) h
      = issueAll [.wr .dataHi (.num 0), .wr .dataLo (.var x), .command .put32] _ :=
        issueAll_cons (issue_rd .crc x h) _
    _ = issueAll [.wr .dataLo (.var x), .command .put32] _ := issueAll_cons (issue_wr .dataHi _ _ rfl) _
    _ = issueAll [.command .put32] _ := issueAll_cons (issue_wr .dataLo _ _ rfl) _
    _ = issueAll [] _ := issueAll_cons (issue_command .put32 _ ((performCommand_of_ok rfl _).trans hput)) _

end Sys2Proof.Machine
end

section
/-! SUPPORT. The command words by their two fields (spec/30_encoding.md R46, R48, R49). -/

namespace Sys2Proof

variable {i : Instr}

/-- A word whose OP is not a span command's decodes to its command where ARG is 0 (30_encoding.md R49). -/
theorem decode_append_opcode (hput : i.opcode ≠ 0x09#8) (hget : i.opcode ≠ 0x0A#8) (arg : BitVec 24) :
    decode (arg ++ i.opcode) = requireZeroArg (arg ++ i.opcode) i := by
  cases i with
  | putspan n => exact absurd rfl hput
  | getspan n => exact absurd rfl hget
  | _ => simp [decode, Instr.opcode]

theorem decode_append_putspan (arg : BitVec 24) : decode (arg ++ 0x09#8) = .ok (.putspan arg.toNat) := by
  simp [decode]

theorem decode_append_getspan (arg : BitVec 24) : decode (arg ++ 0x0A#8) = .ok (.getspan arg.toNat) := by
  simp [decode]

namespace Machine

/-- The word of a command whose ARG must be 0: the command, or E_ILLEGAL (30_encoding.md R49, R51). -/
theorem performCommand_append_opcode (hput : i.opcode ≠ 0x09#8) (hget : i.opcode ≠ 0x0A#8) (arg : BitVec 24)
    (s : State) :
    performCommand (arg ++ i.opcode) s =
      if arg = 0#24 then exec i s else .next { s with status := statusFailed .eIllegal } := by
  rw [performCommand, decode_append_opcode hput hget, requireZeroArg, argField_append]
  by_cases h : arg = 0#24
  · rw [if_pos h, if_pos h]
  · rw [if_neg h, if_neg h]
    rfl

end Machine
end Sys2Proof
end

section
/-! SUPPORT. The cursor commands: their bounds test, and what each moves at the cursor
(spec/40_byte_order.md R57 to R70). -/

namespace Sys2Proof.Machine

variable {s : State}

/-! ## The bounds test -/

/-- The error of a cursor command that does not fit (40_byte_order.md R57). -/
def cursorError (i : Instr) : ErrCode := if readsAtCursor i then .eTrunc else .eOverflow

/-- Every cursor command is its bounds test: where it fits it changes at most BUF, DATA, SPAN_ADDR and the
count of draws, then advances and completes; where it does not, it raises. -/
theorem exec_cursor {i : Instr} {k : Nat} (hc : cursorBytes i = some k) (s : State) :
    ∃ t, exec i s = (if fits k s then complete (advance k t) else raise (cursorError i) s) ∧
      t = { s with buf := t.buf, data := t.data, spanAddr := t.spanAddr, draws := t.draws } := by
  cases i <;> cases hc
  case put8 | put16 | put32 | put64 => exact ⟨_, rfl, rfl⟩
  case putspan | getspan => exact ⟨_, rfl, rfl⟩
  case get8 | get16 | get32 | get64 =>
    refine ⟨_, rfl, ?_⟩
    obtain ⟨d, hd⟩ := memRead_state s.pos.toNat _ s
    rw [hd]
    rfl

/-- Settles O27: the two ends of the test, and LIM at or below BUF_CAP in a legal state. -/
theorem boundsTestGuardsTheCursor : Obligations.BoundsTestGuardsTheCursor := by
  intro i k s hc
  obtain ⟨t, hexec, -⟩ := exec_cursor hc s
  refine ⟨fun hover => ?_, fun hfit => ?_, fun hs hfit j hj => ?_⟩
  · have hcode : (cursorError i).code = if readsAtCursor i then 1#4 else 2#4 :=
      apply_ite ErrCode.code _ _ _
    rw [hexec, if_neg (by rw [fits_iff]; omega), raise_eq, statusFailed, hcode]
  · rw [hexec, if_pos (fits_iff.2 hfit)]
    exact ⟨_, rfl, rfl⟩
  · have := hs.lim
    omega

/-- Settles O28: the command completes, and the frame of `exec_cursor` has every register named. -/
theorem cursorAdvancesByTheExactWidth : Obligations.CursorAdvancesByTheExactWidth := by
  intro i k s hc hfit
  obtain ⟨t, hexec, hframe⟩ := exec_cursor hc s
  have hpos : (advance k t).pos.toNat = s.pos.toNat + k := by
    rw [hframe]
    exact advance_toNat hfit
  rw [hexec, if_pos (fits_iff.2 hfit)]
  refine ⟨_, rfl, hpos, hpos.le.trans hfit, fun hs => ?_, ?_⟩
  · obtain ⟨-, hcap, -⟩ := hs.params
    exact ⟨hpos.le.trans (hfit.trans hs.lim), hcap⟩
  · rw [hframe]
    exact ⟨rfl, rfl, rfl, rfl, rfl, rfl, rfl⟩

/-! ## The byte conversions -/

/-- Byte j of the w bytes a value was decoded from stands at weight 256^(w−1−j) (40_byte_order.md R58). -/
theorem decodeBytes_extractLsb' {bs : List Byte} {w j : Nat} (hlen : bs.length = w) (hw : w ≤ 8)
    (hj : j < bs.length) : (decodeBytes bs).extractLsb' (8 * (w - 1 - j)) 8 = bs[j] := by
  subst hlen
  have h256 : (2 : Nat) ^ (8 * (bs.length - 1 - j)) = 256 ^ (bs.length - 1 - j) := Nat.pow_mul 2 8 _
  apply BitVec.eq_of_toNat_eq
  rw [BitVec.extractLsb'_toNat, decodeBytes_toNat hw, Nat.shiftRight_eq_div_pow, h256]
  exact beNat_digit hj

theorem decodeBytes_lt {bs : List Byte} {w : Nat} (hlen : bs.length = w) (hw : w ≤ 8) :
    (decodeBytes bs).toNat < 256 ^ w := by
  subst hlen
  exact (decodeBytes_toNat hw).trans_lt (beNat_lt bs)

/-- Settles O29: the round trip is `decodeBytes_inner` with no byte left off below. -/
theorem decodeBytesUndoesEncodeBytes : Obligations.DecodeBytesUndoesEncodeBytes := by
  intro w v hw
  have hle : w ≤ 8 := by
    simp only [List.mem_cons, List.not_mem_nil, or_false] at hw
    omega
  exact ⟨encodeBytes_length w v, fun _ hj => encodeBytes_getElem hj,
    by simpa [encodeBytes] using decodeBytes_inner v 0 w, fun bs hbs => decodeBytes_toNat (by omega)⟩

/-! ## PUTw and GETw -/

/-- What a PUTw that fits leaves: its bytes in BUF from the old POS on and nothing else of BUF changed. -/
theorem putInt_of_fits {w : Nat} (hfit : s.pos.toNat + w ≤ s.lim.toNat) :
    ∃ t, putInt w s = .next t ∧
      t = { s with buf := t.buf, pos := t.pos, status := statusCompleted false s.status } ∧
      t.pos.toNat = s.pos.toNat + w ∧
      (∀ j, j < w → t.byteAt (s.pos.toNat + j) = some (s.data.extractLsb' (8 * (w - 1 - j)) 8)) ∧
      (∀ a, a < s.pos.toNat ∨ s.pos.toNat + w ≤ a → t.byteAt a = s.byteAt a) := by
  obtain ⟨-, he⟩ := (putInt_cases w s).resolve_right fun h => h.1 hfit
  have hlen : (encodeBytes w s.data).length = w := encodeBytes_length w s.data
  refine ⟨_, he, rfl, advance_toNat hfit, fun j hj => ?_, fun a ha => ?_⟩
  · have hj' : j < (encodeBytes w s.data).length := by rwa [hlen]
    rw [← encodeBytes_getElem hj']
    exact Memory.lookup_insertAll_inside hj' s.buf
  · exact Memory.lookup_insertAll_outside (by rwa [hlen]) s.buf

/-- Settles O4: the four PUTs are `putInt` at their widths. -/
theorem putWritesDataBigEndianAtPos : Obligations.PutWritesDataBigEndianAtPos := by
  intro i w op hrow s
  obtain ⟨hexec, hput, hget, rfl⟩ :
      exec i = putInt w ∧ i.opcode ≠ 0x09#8 ∧ i.opcode ≠ 0x0A#8 ∧ i.opcode = op := by
    simp only [List.mem_cons, List.not_mem_nil, or_false] at hrow
    rcases hrow with h | h | h | h <;> cases h <;> exact ⟨rfl, by decide, by decide, rfl⟩
  refine ⟨fun hfit => ?_, fun hover => ?_, fun arg => performCommand_append_opcode hput hget arg s⟩
  · rw [hexec]
    exact putInt_of_fits hfit
  · rw [hexec]
    exact ((putInt_cases w s).resolve_left fun h => by omega).2

/-- What a GETw that fits leaves: in DATA the number of the w bytes it read, BUF as before. -/
theorem getInt_of_fits {w : Nat} (hw : w ≤ 8) (hfit : s.pos.toNat + w ≤ s.lim.toNat) :
    ∃ (t : State) (bs : List Byte), getInt w s = .next t ∧ bs.length = w ∧ s.mayRead s.pos.toNat bs ∧
      t = { s with
        data := t.data, pos := t.pos, status := statusCompleted false s.status, draws := t.draws } ∧
      t.pos.toNat = s.pos.toNat + w ∧
      (∀ j (h : j < bs.length), t.data.extractLsb' (8 * (w - 1 - j)) 8 = bs[j]) ∧
      t.data.toNat < 256 ^ w ∧ (s.written s.pos.toNat w → t.draws = s.draws) := by
  obtain ⟨-, he⟩ := (getInt_cases w s).resolve_right fun h => h.1 hfit
  have hlen := memRead_length s.pos.toNat w s
  exact ⟨_, _, he, hlen, memRead_mayRead s.pos.toNat w s, rfl, advance_toNat hfit,
    fun _ hj => decodeBytes_extractLsb' hlen hw hj, decodeBytes_lt hlen hw,
    fun hwritten => by rw [memRead_written hwritten]⟩

/-- Settles O5: the four GETs are `getInt` at their widths. -/
theorem getReadsBigEndianIntoData : Obligations.GetReadsBigEndianIntoData := by
  intro i w op hrow s
  obtain ⟨hexec, hput, hget, rfl, hw⟩ :
      exec i = getInt w ∧ i.opcode ≠ 0x09#8 ∧ i.opcode ≠ 0x0A#8 ∧ i.opcode = op ∧ w ≤ 8 := by
    simp only [List.mem_cons, List.not_mem_nil, or_false] at hrow
    rcases hrow with h | h | h | h <;> cases h <;> exact ⟨rfl, by decide, by decide, rfl, by decide⟩
  refine ⟨fun hfit => ?_, fun hover => ?_, fun arg => performCommand_append_opcode hput hget arg s⟩
  · rw [hexec]
    exact getInt_of_fits hw hfit
  · rw [hexec]
    exact ((getInt_cases w s).resolve_left fun h => by omega).2

/-- Settles O30: the GET reads all the bytes the PUT wrote. -/
theorem putSeekGetReturnsTheValue : Obligations.PutSeekGetReturnsTheValue := by
  intro p g w hrow s hfit
  obtain ⟨hp, hg⟩ : exec p = putInt w ∧ exec g = getInt w := by
    simp only [List.mem_cons, List.not_mem_nil, or_false] at hrow
    rcases hrow with h | h | h | h <;> cases h <;> exact ⟨rfl, rfl⟩
  obtain ⟨s1, s3, hput, hget, hdata, hpos, herr1, herr3⟩ :=
    getInt_inside_putInt (k := 0) (m := w) (l := 0) (s := s) (q := s.pos) (by simpa using hfit) rfl
  rw [Nat.zero_add, Nat.add_zero, ← hp] at hput
  rw [← hg] at hget
  exact ⟨s1, s1.setPos s.pos, s3, hput, rfl, hget, hdata, hpos, herr1, herr3⟩

/-! ## PUTSPAN and GETSPAN -/

/-- What a span command that fits leaves: the old POS in SPAN_ADDR, and POS advanced. -/
theorem takeSpan_of_fits {n : Nat} (e : ErrCode) (hfit : s.pos.toNat + n ≤ s.lim.toNat) :
    ∃ t, takeSpan e n s = .next t ∧
      t = { s with spanAddr := s.pos, pos := t.pos, status := statusCompleted false s.status } ∧
      t.pos.toNat = s.pos.toNat + n := by
  obtain ⟨-, he⟩ := (takeSpan_cases e n s).resolve_right fun h => h.1 hfit
  exact ⟨_, he, rfl, advance_toNat hfit⟩

theorem takeSpan_of_overflow {n : Nat} (e : ErrCode) (hover : s.lim.toNat < s.pos.toNat + n) :
    takeSpan e n s = .next { s with status := statusFailed e } :=
  ((takeSpan_cases e n s).resolve_left fun h => by omega).2

/-- Settles O6: PUTSPAN is `takeSpan` with E_OVERFLOW. -/
theorem putspanReservesAtTheCursor : Obligations.PutspanReservesAtTheCursor := fun _ s =>
  ⟨takeSpan_of_fits .eOverflow, takeSpan_of_overflow .eOverflow,
    fun arg => performCommand_of_ok (decode_append_putspan arg) s⟩

/-- Settles O7: GETSPAN is `takeSpan` with E_TRUNC. -/
theorem getspanConsumesAtTheCursor : Obligations.GetspanConsumesAtTheCursor := fun _ s =>
  ⟨takeSpan_of_fits .eTrunc, takeSpan_of_overflow .eTrunc,
    fun arg => performCommand_of_ok (decode_append_getspan arg) s⟩

end Sys2Proof.Machine
end

section
/-! SUPPORT. The checksum function: under the default CRC_MODEL, by table, in normal form, and what it tells
apart (spec/41_checksum.md R72 to R75, R80). -/

namespace Sys2Proof.Machine

variable {poly c : Word}

/-! ## The default CRC_MODEL -/

/-- The default CRC_MODEL, reflected, is the polynomial and the initial value of R72; empty input gives 0
there too. -/
theorem checksum_eq_crc32 {M : CrcModel} (hM : M = .isoHdlc) (bs : List Byte) : checksum M bs = crc32 bs := by
  have hpoly : (0x04C11DB7#32).reverse = 0xEDB88320#32 := by decide +kernel
  have hinit : (0xFFFFFFFF#32).reverse = 0xFFFFFFFF#32 := by decide +kernel
  subst hM
  unfold checksum
  split
  next hnil => rw [hnil]; rfl
  next => simp [CrcModel.isoHdlc, crc32, hpoly, hinit]

/-- Settles O32: the check value is a run of the loop over nine bytes. -/
theorem defaultCrcModelIsCrc32 : Obligations.DefaultCrcModelIsCrc32 :=
  ⟨rfl, by decide +kernel, checksum_eq_crc32 rfl⟩

/-! ## By table -/

/-- While only zero bits leave the register, the inner loop is a shift. -/
theorem crcBits_of_low_zero {n : Nat} (h : ∀ j < n, c.getLsbD j = false) : crcBits poly n c = c >>> n := by
  induction n generalizing c with
  | zero => simp [crcBits]
  | succ n ih =>
    have hbit : crcBit poly c = c >>> 1 := if_neg (Bool.eq_false_iff.1 (h 0 (by omega)))
    rw [crcBits, hbit, ih fun j hj => by simpa using h (1 + j) (by omega), ← BitVec.shiftRight_add,
      Nat.add_comm]

/-- A register and the byte XORed into it, split into the table's index and the bits above it. -/
theorem xor_setWidth_eq (c : Word) (b : Byte) :
    c ^^^ b.setWidth 32 = (c.setWidth 8 ^^^ b).setWidth 32 ^^^ (c >>> 8) <<< 8 := by
  ext j hj
  by_cases h : j < 8
  · simp [h, hj]
  · simp [h, hj, show 8 + (j - 8) = j by omega, Bool.xor_comm]

/-- One table step is the inner loop: it is linear, and takes the upper three bytes by a shift. -/
theorem crcByteByTable_eq (poly c : Word) (b : Byte) : crcByteByTable poly c b = crcByte poly c b := by
  have hupper : crcBits poly 8 ((c >>> 8) <<< 8) = c >>> 8 := by
    rw [crcBits_of_low_zero fun j hj => by simp [hj]]
    ext j hj
    simpa using BitVec.lt_of_getLsbD
  rw [crcByte, xor_setWidth_eq, crcBits_xor, hupper]
  rfl

/-- Settles O37: both run over the sequence byte by byte. -/
theorem tableDrivenCrcIsCrc32 : Obligations.TableDrivenCrcIsCrc32 := by
  refine ⟨crcByteByTable_eq, fun bs => ?_⟩
  have hstep : crcByteByTable 0xEDB88320#32 = crcByte 0xEDB88320#32 :=
    funext₂ (crcByteByTable_eq 0xEDB88320#32)
  rw [crc32ByTable, hstep]
  rfl

/-! ## The normal form -/

theorem reverse_xor {w : Nat} (x y : BitVec w) : (x ^^^ y).reverse = x.reverse ^^^ y.reverse := by
  ext j hj
  simp [BitVec.getElem_reverse]

theorem reverse_shiftLeft {w : Nat} (x : BitVec w) (n : Nat) : (x <<< n).reverse = x.reverse >>> n := by
  ext j hj
  simp [BitVec.getElem_reverse, BitVec.getLsbD_reverse, Nat.add_comm]

/-- The top byte of the unreflected register is the low byte of the reflected one, bits reversed. -/
theorem reverse_setWidth_shiftLeft (b : Byte) : (b.setWidth 32 <<< 24).reverse = b.reverse.setWidth 32 := by
  ext j hj
  simp [BitVec.getElem_reverse, BitVec.getLsbD_reverse]

theorem crcBit_reverse (poly c : Word) : crcBit poly.reverse c.reverse = (crcBitNormal poly c).reverse := by
  have hout : c.reverse.getLsbD 0 = c.msb := BitVec.getLsbD_reverse
  unfold crcBit crcBitNormal
  rw [hout, apply_ite BitVec.reverse, reverse_xor, reverse_shiftLeft]

theorem crcBits_reverse (poly c : Word) (n : Nat) :
    crcBits poly.reverse n c.reverse = (crcBitsNormal poly n c).reverse := by
  induction n generalizing c with
  | zero => rfl
  | succ n ih => rw [crcBits, crcBit_reverse, ih, crcBitsNormal]

theorem crcByte_reverse (poly c : Word) (b : Byte) :
    crcByte poly.reverse c.reverse b.reverse = (crcByteNormal poly c b).reverse := by
  rw [crcByte, crcByteNormal, ← crcBits_reverse, reverse_xor, reverse_setWidth_shiftLeft]

/-- A run of the reflected register over bytes with their bits reversed is the reversed run of the
unreflected one. -/
theorem crcRun_reverse (poly c : Word) (bs : List Byte) :
    crcRun poly.reverse c.reverse (bs.map BitVec.reverse) = (bs.foldl (crcByteNormal poly) c).reverse := by
  induction bs generalizing c with
  | nil => rfl
  | cons b bs ih => exact (congrArg (crcRun _ · _) (crcByte_reverse poly c b)).trans (ih _)

/-- Settles O38: the two registers are each other's reverse, and so are the bytes each is given. -/
theorem reflectedChecksumIsTheNormalForm : Obligations.ReflectedChecksumIsTheNormalForm := by
  intro M bs
  have hbytes : (bs.map fun b => if M.refIn then b else b.reverse) =
      (bs.map fun b => if M.refIn then b.reverse else b).map BitVec.reverse := by
    cases M.refIn <;> simp [Function.comp_def, BitVec.reverse_reverse_eq]
  unfold checksum checksumNormal
  simp only [hbytes, crcRun_reverse, BitVec.reverse_reverse_eq]

/-! ## What the checksum tells apart -/

/-- A polynomial whose top bit is set leaves it in the register, so no nonzero register becomes 0. -/
theorem eq_zero_of_crcBit_eq_zero (hpoly : poly.msb = true) (h : crcBit poly c = 0#32) : c = 0#32 := by
  unfold crcBit at h
  split at h
  next =>
    have hmsb := congrArg BitVec.msb h
    simp [hpoly] at hmsb
  next hlow =>
    ext j hj
    cases j with
    | zero => simpa using hlow
    | succ j => simpa [Nat.add_comm, hj] using congrArg (BitVec.getLsbD · j) h

theorem crcBit_injective (hpoly : poly.msb = true) : Function.Injective (crcBit poly) := by
  intro a b h
  refine BitVec.xor_eq_zero_iff.1 (eq_zero_of_crcBit_eq_zero hpoly ?_)
  rw [crcBit_xor, h, BitVec.xor_self]

theorem crcBits_injective (hpoly : poly.msb = true) (n : Nat) : Function.Injective (crcBits poly n) := by
  induction n with
  | zero => exact Function.injective_id
  | succ n ih => exact ih.comp (crcBit_injective hpoly)

/-- One register and two bytes: the results differ where the bytes do. -/
theorem crcByte_injective (hpoly : poly.msb = true) (c : Word) : Function.Injective (crcByte poly c) := by
  intro a b h
  have hwide : a.setWidth 32 = b.setWidth 32 := (BitVec.xor_right_inj c).1 (crcBits_injective hpoly 8 h)
  simpa using congrArg (BitVec.setWidth 8) hwide

/-- Two registers and one sequence: the results differ where the registers do. -/
theorem crcRun_injective (hpoly : poly.msb = true) (bs : List Byte) :
    Function.Injective (crcRun poly · bs) := by
  induction bs with
  | nil => exact Function.injective_id
  | cons b bs ih =>
    intro a c h
    exact (BitVec.xor_left_inj _).1 (crcBits_injective hpoly 8 (ih h))

/-- A change confined to one byte changes `crc32` (41_checksum.md R80). -/
theorem crc32_ne_of_byte_ne {a b : Byte} (hne : a ≠ b) (pre post : List Byte) :
    crc32 (pre ++ a :: post) ≠ crc32 (pre ++ b :: post) := by
  have hpoly : (0xEDB88320#32).msb = true := by decide
  intro h
  have hrun := (BitVec.xor_left_inj _).1 h
  rw [crcRun_append, crcRun_append] at hrun
  exact hne (crcByte_injective hpoly _ (crcRun_injective hpoly post hrun))

theorem xor_shiftLeft_one_ne {k : Nat} (hk : k < 8) (b : Byte) : b ^^^ (1#8 <<< k) ≠ b := by
  have hbit : ∀ k < 8, 1#8 <<< k ≠ 0#8 := by decide
  intro h
  exact hbit k hk ((BitVec.xor_right_inj b).1 (h.trans BitVec.xor_zero.symm))

end Sys2Proof.Machine
end

section
/-! SUPPORT. The checksum commands over their spans: CRC1 and VERIFY read one span, CRC2 two in a row
(spec/41_checksum.md R74 to R80). -/

namespace Sys2Proof.Machine

variable {s : State}

/-! ## One span -/

/-- A read of a written span draws nothing. -/
theorem readSpanA_of_written (hw : s.written s.aAddr.toNat s.aLen.toNat) : (readSpanA s).2 = s :=
  memRead_written hw

/-- The bytes of span A depend on BUF, the count of draws and the A registers alone. -/
theorem readSpanA_congr {t : State} (hbuf : s.buf = t.buf) (hdraws : s.draws = t.draws)
    (haddr : s.aAddr = t.aAddr) (hlen : s.aLen = t.aLen) : (readSpanA s).1 = (readSpanA t).1 := by
  rw [readSpanA, readSpanA, haddr, hlen]
  exact (memRead_congr hbuf hdraws).1

theorem execCrc1_of_valid (hin : s.aAddr.toNat + s.aLen.toNat ≤ s.params.bufCap) :
    execCrc1 s = .next { s with
      crc := checksum s.params.crcModel (readSpanA s).1
      status := statusCompleted false s.status
      draws := (readSpanA s).2.draws } :=
  ((execCrc1_cases s).resolve_right fun h => h.1 hin).2

/-- Settles O8: CRC1 where the span is valid and where it is not, and its word. -/
theorem crc1ChecksumsSpanA : Obligations.Crc1ChecksumsSpanA := by
  intro s
  refine ⟨fun hin => ?_, fun hout => ?_,
    performCommand_append_opcode (i := .crc1) (by decide) (by decide) (s := s)⟩
  · exact ⟨_, _, execCrc1_of_valid hin, memRead_length _ _ _, memRead_mayRead _ _ _, rfl,
      fun hdefault => checksum_eq_crc32 hdefault _, fun hw => by rw [readSpanA_of_written hw]⟩
  · exact ((execCrc1_cases s).resolve_left fun h => by omega).2

theorem execVerify_of_valid (hin : s.aAddr.toNat + s.aLen.toNat ≤ s.params.bufCap) :
    execVerify s = .next { s with
      crc := checksum s.params.crcModel (readSpanA s).1
      status := statusCompleted (verifyMatch (checksum s.params.crcModel (readSpanA s).1) s.expect) s.status
      draws := (readSpanA s).2.draws } :=
  ((execVerify_cases s).resolve_right fun h => h.1 hin).2

/-- Settles O10: VERIFY where the span is valid and where it is not, and its word. -/
theorem verifyComparesWithExpect : Obligations.VerifyComparesWithExpect := by
  intro s
  refine ⟨fun hin => ?_, fun hout => ?_,
    performCommand_append_opcode (i := .verify) (by decide) (by decide) (s := s)⟩
  · exact ⟨_, _, execVerify_of_valid hin, memRead_length _ _ _, memRead_mayRead _ _ _, rfl,
      decide_eq_true_iff, fun hdefault => checksum_eq_crc32 hdefault _,
      fun hw => by rw [readSpanA_of_written hw]⟩
  · exact ((execVerify_cases s).resolve_left fun h => by omega).2

/-- Settles O36: a flipped bit changes one byte, and a MATCH of 0 is no error. -/
theorem singleBitFlipChangesCrc32 : Obligations.SingleBitFlipChangesCrc32 :=
  ⟨fun pre post b _ hk => crc32_ne_of_byte_ne (xor_shiftLeft_one_ne hk b) pre post,
    fun _ hin => ⟨_, execVerify_of_valid hin, fun hne => ⟨decide_eq_false hne, rfl⟩⟩⟩

/-- Over written bytes VERIFY draws nothing: it changes CRC and STATUS alone. -/
theorem execVerify_of_written {c : Word} (hin : s.aAddr.toNat + s.aLen.toNat ≤ s.params.bufCap)
    (hw : s.written s.aAddr.toNat s.aLen.toNat) (hc : checksum s.params.crcModel (readSpanA s).1 = c) :
    execVerify s = .next { s with crc := c, status := statusCompleted (verifyMatch c s.expect) s.status } := by
  rw [execVerify_of_valid hin, hc, readSpanA_of_written hw]

/-- Settles O39: the first VERIFY leaves BUF and span A as they were, so the second reads the same bytes. -/
theorem repeatedVerifyChangesNothing : Obligations.RepeatedVerifyChangesNothing := fun s hin hw =>
  ⟨_, execVerify_of_written hin hw rfl,
    execVerify_of_written hin hw (congrArg (checksum s.params.crcModel) (readSpanA_congr rfl rfl rfl rfl))⟩

/-! ## Span A followed by span B -/

/-- CRC2's read: the bytes of the two spans in a row, and the state it leaves (41_checksum.md R78). -/
def readSpans (s : State) : List Byte × State :=
  ((readSpanA s).1 ++ (readSpanB (readSpanA s).2).1, (readSpanB (readSpanA s).2).2)

theorem readSpanB_readSpanA (s : State) :
    readSpanB (readSpanA s).2 = memRead s.bAddr.toNat s.bLen.toNat (readSpanA s).2 := by
  obtain ⟨k, hk⟩ := memRead_state s.aAddr.toNat s.aLen.toNat s
  simp only [readSpanB, readSpanA, hk, State.setDraws_fields]

theorem execCrc2_of_valid (hinA : s.aAddr.toNat + s.aLen.toNat ≤ s.params.bufCap)
    (hinB : s.bAddr.toNat + s.bLen.toNat ≤ s.params.bufCap) :
    execCrc2 s = .next { s with
      crc := checksum s.params.crcModel (readSpans s).1
      status := statusCompleted false s.status
      draws := (readSpans s).2.draws } := by
  obtain ⟨-, -, he⟩ := (execCrc2_cases s).resolve_right fun h => h.1 ⟨hinA, hinB⟩
  rw [he, readSpans, readSpanB_readSpanA]

theorem execCrc2_of_invalid (hout : s.params.bufCap < s.aAddr.toNat + s.aLen.toNat ∨
    s.params.bufCap < s.bAddr.toNat + s.bLen.toNat) :
    execCrc2 s = .next { s with status := statusFailed .eSpan } :=
  ((execCrc2_cases s).resolve_left fun h => by omega).2

/-- The read of span A changed nothing but the count of draws, so the bytes read of span B are a possible
reading of BUF as it was. -/
theorem readSpanB_readSpanA_mayRead (s : State) : s.mayRead s.bAddr.toNat (readSpanB (readSpanA s).2).1 := by
  obtain ⟨k, hk⟩ := memRead_state s.aAddr.toNat s.aLen.toNat s
  rw [readSpanA, hk]
  exact memRead_mayRead s.bAddr.toNat s.bLen.toNat (s.setDraws k)

theorem readSpans_of_written (hwA : s.written s.aAddr.toNat s.aLen.toNat)
    (hwB : s.written s.bAddr.toNat s.bLen.toNat) : (readSpans s).2 = s := by
  rw [readSpans, readSpanA_of_written hwA]
  exact memRead_written hwB

/-- Settles O9: CRC2 where both spans are valid and where one is not, and its word. -/
theorem crc2ChecksumsSpanAThenSpanB : Obligations.Crc2ChecksumsSpanAThenSpanB := by
  intro s
  refine ⟨fun hinA hinB => ?_, execCrc2_of_invalid,
    performCommand_append_opcode (i := .crc2) (by decide) (by decide) (s := s)⟩
  have hlenB : (readSpanB (readSpanA s).2).1.length = s.bLen.toNat := by
    rw [readSpanB_readSpanA, memRead_length]
  exact ⟨_, _, _, execCrc2_of_valid hinA hinB, memRead_length _ _ _, memRead_mayRead _ _ _, hlenB,
    readSpanB_readSpanA_mayRead s, rfl, fun hdefault => checksum_eq_crc32 hdefault _,
    fun hwA hwB => by rw [readSpans_of_written hwA hwB]⟩

/-- Where CRC2's two reads are one read of a valid span, CRC2 is CRC1 with that span in the A registers. -/
theorem execCrc2_of_readSpans_eq {a n : Word} (hinA : s.aAddr.toNat + s.aLen.toNat ≤ s.params.bufCap)
    (hinB : s.bAddr.toNat + s.bLen.toNat ≤ s.params.bufCap) (hin : a.toNat + n.toNat ≤ s.params.bufCap)
    (hread : readSpans s = memRead a.toNat n.toNat s) :
    ∃ c k,
      execCrc2 s = .next { s with crc := c, status := statusCompleted false s.status, draws := k } ∧
      execCrc1 { s with aAddr := a, aLen := n } = .next { s with
        aAddr := a, aLen := n, crc := c, status := statusCompleted false s.status, draws := k } := by
  refine ⟨_, _, execCrc2_of_valid hinA hinB, (execCrc1_of_valid hin).trans ?_⟩
  obtain ⟨hbytes, hdraws⟩ :=
    memRead_congr (a := a.toNat) (n := n.toNat) (s := { s with aAddr := a, aLen := n }) (t := s) rfl rfl
  simp only [hread, readSpanA, hbytes, hdraws]

/-- Settles O35: the two reads in a row are one read of the joined span. -/
theorem crc2OfAdjacentSpansIsCrc1OfTheJoinedSpan : Obligations.Crc2OfAdjacentSpansIsCrc1OfTheJoinedSpan := by
  intro s n hadjacent hn hin
  have hread : readSpans s = memRead s.aAddr.toNat n.toNat s := by
    rw [readSpans, readSpanB_readSpanA, hadjacent, hn, memRead_append]
    rfl
  obtain ⟨_, _, h2, h1⟩ := execCrc2_of_readSpans_eq (by omega) (by omega) hin hread
  exact ⟨_, _, h2, h1, rfl⟩

/-! ## Empty spans -/

theorem readSpanA_of_empty (h : s.aLen = 0#32) : readSpanA s = ([], s) := by
  rw [readSpanA, h]
  rfl

/-- Settles O33: `crc32` starts from the mask it ends with, and `checksum` tests for empty input. -/
theorem emptyInputHasChecksumZero : Obligations.EmptyInputHasChecksumZero := by
  refine ⟨by decide, fun _ => rfl, fun s hlen hin =>
    ⟨_, execCrc1_of_valid (by simpa [hlen] using hin), ?_, rfl⟩⟩
  rw [readSpanA_of_empty hlen]
  rfl

theorem readSpans_of_empty_spanA (h : s.aLen = 0#32) : readSpans s = readSpanB s := by
  rw [readSpans, readSpanA_of_empty h]
  rfl

theorem readSpans_of_empty_spanB (h : s.bLen = 0#32) : readSpans s = readSpanA s := by
  rw [readSpans, readSpanB_readSpanA, h]
  exact Prod.ext (List.append_nil _) rfl

/-- With span B empty and valid, CRC2 reads, tests and writes what CRC1 does. -/
theorem execCrc2_of_empty_spanB (hlen : s.bLen = 0#32) (hin : s.bAddr.toNat ≤ s.params.bufCap) :
    execCrc2 s = execCrc1 s := by
  rcases execCrc1_cases s with ⟨hA, h1⟩ | ⟨hA, h1⟩
  · rw [h1, execCrc2_of_valid hA (by simpa [hlen] using hin), readSpans_of_empty_spanB hlen]
  · rw [h1, execCrc2_of_invalid (.inl (not_le.1 hA))]

/-- With span A empty and valid, CRC2 is CRC1 with span B in the A registers, on a valid span B or not. -/
theorem execCrc2_of_empty_spanA (hlen : s.aLen = 0#32) (hin : s.aAddr.toNat ≤ s.params.bufCap) :
    ∃ t u, execCrc2 s = .next t ∧ execCrc1 { s with aAddr := s.bAddr, aLen := s.bLen } = .next u ∧
      t = { u with aAddr := s.aAddr, aLen := s.aLen } := by
  rcases execCrc1_cases { s with aAddr := s.bAddr, aLen := s.bLen } with ⟨hB, -⟩ | ⟨hB, h1⟩
  · obtain ⟨_, _, h2, h1⟩ :=
      execCrc2_of_readSpans_eq (by simpa [hlen] using hin) hB hB (readSpans_of_empty_spanA hlen)
    exact ⟨_, _, h2, h1, rfl⟩
  · exact ⟨_, _, execCrc2_of_invalid (.inr (not_le.1 hB)), h1, rfl⟩

/-- Settles O34: an empty span adds no byte, on either side; and two one-byte sequences do not commute. -/
theorem crc2WithAnEmptySpanIsCrc1 : Obligations.Crc2WithAnEmptySpanIsCrc1 := by
  refine ⟨fun _ => execCrc2_of_empty_spanB, fun _ => execCrc2_of_empty_spanA,
    fun s hlenA hinA hlenB hinB => ?_, [0#8], [1#8], by decide +kernel⟩
  obtain ⟨-, -, hcrc1⟩ := emptyInputHasChecksumZero
  obtain ⟨t, ht, hcrc, -⟩ := hcrc1 s hlenA hinA
  exact ⟨t, (execCrc2_of_empty_spanB hlenB hinB).trans ht, hcrc⟩

end Sys2Proof.Machine
end

section
/-! SUPPORT. NOP, and the host accesses at each offset of the register map and of the window
(spec/42_control.md R83 to R87). -/

namespace Sys2Proof.Machine

variable {s : State}

/-- Settles O3: NOP ends by `complete`, and its word is the command's exactly where ARG is 0. -/
theorem nopOnlyClearsErrAndMatch : Obligations.NopOnlyClearsErrAndMatch := fun s =>
  ⟨complete_eq s, fun arg => performCommand_append_opcode (i := .nop) (by decide) (by decide) arg s⟩

/-! ## Register reads -/

theorem readOffset_of_eq_offset {o : Nat} (r : Reg) (h : o = r.offset) (s : State) :
    readOffset o s = readReg r s := by
  subst h
  cases r <;> rfl

theorem readOffset_of_reserved {o : Nat} (h : 0x34 ≤ o) (s : State) : readOffset o s = 0#32 := by
  rw [readOffset, regAt_reserved h]

/-- The word of STATUS (42_control.md R84), by its 64 values. -/
theorem statusWord_toNat (st : Status) :
    (statusWord st).toNat = st.err.toNat + 16 * st.matched.toNat + 32 * st.sticky.toNat := by
  obtain ⟨err, matched, sticky⟩ := st
  revert err matched sticky
  decide

/-- Settles O40: the access reaches the register region, and each clause reads one register of the map. -/
theorem hostRegisterReadReturnsTheRegister : Obligations.HostRegisterReadReturnsTheRegister := by
  intro s o h4 ho
  refine ⟨readOffset o s, hostAccess_read_register (route_register ho h4),
    (readOffset_of_eq_offset .cmd · s), fun h => ?_, (readOffset_of_eq_offset .pos · s),
    (readOffset_of_eq_offset .lim · s), (readOffset_of_eq_offset .dataHi · s),
    (readOffset_of_eq_offset .dataLo · s), (readOffset_of_eq_offset .crc · s),
    (readOffset_of_eq_offset .expect · s), (readOffset_of_eq_offset .aAddr · s),
    (readOffset_of_eq_offset .aLen · s), (readOffset_of_eq_offset .bAddr · s),
    (readOffset_of_eq_offset .bLen · s), (readOffset_of_eq_offset .spanAddr · s),
    (readOffset_of_reserved · s)⟩
  rw [readOffset_of_eq_offset .status h s]
  exact statusWord_toNat s.status

/-! ## Register writes -/

theorem writeOffset_of_eq_offset {o : Nat} (r : Reg) (h : o = r.offset) (v : Word) (s : State) :
    writeOffset o v s = writeReg r v s := by
  subst h
  cases r <;> rfl

/-- SPAN_ADDR is read-only, and a reserved offset ignores a write (10_state.md R17). -/
theorem writeOffset_of_readOnly {o : Nat} (h4 : o % 4 = 0) (h : 0x30 ≤ o) (v : Word) (s : State) :
    writeOffset o v s = .next s := by
  by_cases hspan : o = 0x30
  · exact writeOffset_of_eq_offset .spanAddr hspan v s
  · rw [writeOffset, regAt_reserved (by omega)]

theorem hostAccess_write_register {bits addr o : Nat} (h : route s.params bits addr = .register o) (v : Word) :
    hostAccess (.write bits addr v) s = writeOffset o v s := by
  simp only [hostAccess, h]

theorem statusWritten_eq (v : Word) (st : Status) :
    statusWritten v st = { st with sticky := st.sticky && !v.getLsbD 5 } := by
  rw [statusWritten]
  cases v.getLsbD 5 <;> simp

/-- The minimum fits in LIM's 32 bits, as the written value does (10_state.md R20). -/
theorem clampLim_toNat (v : Word) (s : State) : (clampLim v s).toNat = min v.toNat s.params.bufCap := by
  have := v.isLt
  rw [clampLim, BitVec.toNat_ofNat]
  exact Nat.mod_eq_of_lt (by omega)

/-- Settles O41: the access reaches the register region, and each clause writes one register of the map. -/
theorem hostRegisterWriteStoresTheRegister : Obligations.HostRegisterWriteStoresTheRegister := by
  intro s o v r h4 ho hr
  have hwrite : r = writeOffset o v s := hr.trans (hostAccess_write_register (route_register ho h4) v)
  have hreg (q : Reg) (h : o = q.offset) : r = writeReg q v s :=
    hwrite.trans (writeOffset_of_eq_offset q h v s)
  refine ⟨hreg .cmd, fun h => ?_, hreg .pos,
    fun h => ⟨clampLim v s, clampLim_toNat v s, hreg .lim h⟩,
    fun h => ⟨withDataHi v s.data, BitVec.extractLsb'_append_eq_left, BitVec.extractLsb'_append_eq_right,
      hreg .dataHi h⟩,
    fun h => ⟨withDataLo v s.data, BitVec.extractLsb'_append_eq_right, BitVec.extractLsb'_append_eq_left,
      hreg .dataLo h⟩,
    hreg .crc, hreg .expect, hreg .aAddr, hreg .aLen, hreg .bAddr, hreg .bLen,
    fun h => hwrite.trans (writeOffset_of_readOnly h4 h v s)⟩
  rw [← statusWritten_eq]
  exact hreg .status h

/-! ## The window -/

theorem hostAccess_read_unwritten {bits addr i : Nat} (h : route s.params bits addr = .window i)
    (hn : s.byteAt i = none) :
    hostAccess (.read bits addr) s =
      .next ((s.setDraws (s.draws + 1)).pushReturned (.byte (Config.unwrittenByte s.draws))) := by
  rcases readByte_cases i s with ⟨b, hb, -⟩ | ⟨-, hr⟩
  · cases hn.symm.trans hb
  · simp only [hostAccess, h, readWindow, hr]

/-- Settles O42: the byte was written, and is returned with nothing drawn, or a free value is. -/
theorem windowReadReturnsTheByte : Obligations.WindowReadReturnsTheByte := by
  intro s i hp hi
  have hroute := route_window hp hi
  cases hbyte : s.byteAt i with
  | some b =>
    refine ⟨_, b, hostAccess_read_written hroute hbyte, rfl, ?_⟩
    rintro b' ⟨⟩
    exact ⟨rfl, rfl⟩
  | none => exact ⟨_, _, hostAccess_read_unwritten hroute hbyte, rfl, nofun⟩

theorem hostAccess_write_window {bits addr i : Nat} (h : route s.params bits addr = .window i) (v : Word) :
    hostAccess (.write bits addr v) s = .next (memWrite i [v.setWidth 8] s) := by
  simp only [hostAccess, h, writeWindow]

/-- Settles O43: one byte is written to BUF, so the laws of `Memory.insert` say what each index then reads. -/
theorem windowWriteStoresTheByte : Obligations.WindowWriteStoresTheByte := by
  intro s i v hp hi
  refine ⟨_, hostAccess_write_window (route_window hp hi) v, rfl, ?_, fun a ha => ?_⟩
  · rw [← BitVec.setWidth_eq_extractLsb' (by decide)]
    exact Memory.lookup_insert_same i _ s.buf
  · exact Memory.lookup_insert_other ha _ s.buf

end Sys2Proof.Machine
end

section
/-! SUPPORT. How a command word and a step end, and the ERR code each cause leaves
(spec/60_exceptions.md R88, R89, R92). -/

namespace Sys2Proof.Machine

variable {s : State}

/-! ## Every command word ends, and every step is taken or refused -/

/-- A command word succeeds and keeps STICKY, or fails and changes STATUS alone (30_encoding.md R52 to R54). -/
theorem performCommand_ends (w : Word) (s : State) :
    ∃ t, performCommand w s = .next t ∧ t.arrivals = s.arrivals ∧
      ((t.status.err = 0#4 ∧ t.status.sticky = s.status.sticky) ∨
        (t.status.err ≠ 0#4 ∧
          t = { s with status := { err := t.status.err, matched := false, sticky := true } })) := by
  obtain ⟨t, ht, harr⟩ := performCommand_next w s
  refine ⟨t, ht, harr, ?_⟩
  by_cases herr : t.status.err = 0#4
  · obtain ⟨hsticky, -⟩ := successKeepsStickyAndClearsMatch w s t ht herr
    exact .inl ⟨herr, hsticky⟩
  · obtain ⟨-, hframe⟩ := failingCommandChangesOnlyStatus w s t ht herr
    exact .inr ⟨herr, hframe⟩

theorem step_of_arrivals_cons {x : Arrival} {rest : List Arrival} (h : s.arrivals = x :: rest) :
    step s = takeArrival x (s.setArrivals rest) := by
  rw [step, h]

/-- With the parameters in bounds, an access the map allows is taken and any other is refused
(20_memory.md R32, R37). -/
theorem hostAccess_next_or_illegal (hp : s.params.wf) (a : Access) :
    (∃ t, hostAccess a s = .next t) ∨
      ∃ r, ¬ legalAccess s.params a.bits a.addr ∧ hostAccess a s = .refused r := by
  rcases hostAccess_cases a s with ⟨r, hr, he⟩ | ⟨-, t, ht, -⟩
  · exact .inr ⟨r, fun hlegal => (legalAccess_iff hp _ _).1 hlegal r hr, he⟩
  · exact .inl ⟨t, ht⟩

/-- Of the arrivals, only a host access can have no step. -/
theorem step_next_or_illegalAccess (hp : s.params.wf) :
    (∃ t, step s = .next t) ∨
      ∃ a rest r, s.arrivals = .access a :: rest ∧ ¬ legalAccess s.params a.bits a.addr ∧
        step s = .refused r := by
  cases hs : s.arrivals with
  | nil => exact .inl ⟨s, by rw [step, hs]⟩
  | cons x rest =>
    rw [step_of_arrivals_cons hs]
    cases x with
    | reset => exact .inl ⟨_, rfl⟩
    | powerUp => exact .inl ⟨_, rfl⟩
    | access a =>
      exact (hostAccess_next_or_illegal (s := s.setArrivals rest) hp a).imp_right
        fun ⟨r, hillegal, he⟩ => ⟨a, rest, r, rfl, hillegal, he⟩

/-- Settles O19: a command word's two ends, and a step taken unless its access is refused. -/
theorem everyCommandEndsAndNoStepFaults : Obligations.EveryCommandEndsAndNoStepFaults :=
  ⟨performCommand_ends, fun _ hp => step_next_or_illegalAccess hp⟩

/-! ## The code each cause leaves -/

/-- `r` is a next state with ERR = `n`. -/
def EndsWithErr (r : Result) (n : Nat) : Prop := ∃ t, r = .next t ∧ t.status.err.toNat = n

theorem complete_endsWithErr (s : State) : EndsWithErr (complete s) 0 := ⟨_, rfl, rfl⟩

theorem raise_endsWithErr (e : ErrCode) (s : State) : EndsWithErr (raise e s) e.code.toNat := ⟨_, rfl, rfl⟩

/-- A cursor command's code is the result of its bounds test (40_byte_order.md R57). -/
theorem exec_cursor_endsWithErr {i : Instr} {k : Nat} (hc : cursorBytes i = some k) (s : State) :
    EndsWithErr (exec i s)
      (if s.pos.toNat + k ≤ s.lim.toNat then 0 else if readsAtCursor i then 1 else 2) := by
  obtain ⟨t, hexec, -⟩ := exec_cursor hc s
  rw [hexec]
  by_cases hfit : s.pos.toNat + k ≤ s.lim.toNat
  · rw [if_pos (fits_iff.2 hfit), if_pos hfit]
    exact complete_endsWithErr _
  · have hcode : (cursorError i).code.toNat = if readsAtCursor i then 1 else 2 :=
      apply_ite (fun e : ErrCode => e.code.toNat) _ _ _
    rw [if_neg (mt fits_iff.1 hfit), if_neg hfit, ← hcode]
    exact raise_endsWithErr _ s

theorem execCrc1_endsWithErr (s : State) :
    EndsWithErr (execCrc1 s) (if s.params.bufCap < s.aAddr.toNat + s.aLen.toNat then 3 else 0) := by
  split
  next hout => exact ⟨_, ((execCrc1_cases s).resolve_left fun h => by omega).2, rfl⟩
  next hin => exact ⟨_, execCrc1_of_valid (Nat.not_lt.1 hin), rfl⟩

theorem execVerify_endsWithErr (s : State) :
    EndsWithErr (execVerify s) (if s.params.bufCap < s.aAddr.toNat + s.aLen.toNat then 3 else 0) := by
  split
  next hout => exact ⟨_, ((execVerify_cases s).resolve_left fun h => by omega).2, rfl⟩
  next hin => exact ⟨_, execVerify_of_valid (Nat.not_lt.1 hin), rfl⟩

theorem execCrc2_endsWithErr (s : State) :
    EndsWithErr (execCrc2 s)
      (if s.params.bufCap < s.aAddr.toNat + s.aLen.toNat then 3
      else if s.params.bufCap < s.bAddr.toNat + s.bLen.toNat then 3 else 0) := by
  split_ifs with houtA houtB
  · exact ⟨_, execCrc2_of_invalid (.inl houtA), rfl⟩
  · exact ⟨_, execCrc2_of_invalid (.inr houtB), rfl⟩
  · exact ⟨_, execCrc2_of_valid (Nat.not_lt.1 houtA) (Nat.not_lt.1 houtB), rfl⟩

/-- A command that does not use the cursor is NOP, which cannot fail, or a checksum command, which fails on a
span past BUF_CAP (41_checksum.md R76; 42_control.md R83). -/
theorem exec_noCursor_endsWithErr {i : Instr} (hc : cursorBytes i = none) (s : State) :
    EndsWithErr (exec i s)
      (if i = .nop then 0
      else if s.params.bufCap < s.aAddr.toNat + s.aLen.toNat then 3
      else if i = .crc2 ∧ s.params.bufCap < s.bAddr.toNat + s.bLen.toNat then 3
      else 0) := by
  cases i <;> cases hc
  case nop => exact complete_endsWithErr s
  case crc1 => simpa [exec] using execCrc1_endsWithErr s
  case crc2 => simpa [exec] using execCrc2_endsWithErr s
  case verify => simpa [exec] using execVerify_endsWithErr s

/-- Settles O23: the decoder's error, the bounds test of a cursor command, or the spans of any other. -/
theorem errCodeHasItsCause : Obligations.ErrCodeHasItsCause := by
  intro w s
  cases hd : decode w with
  | error e =>
    rw [performCommand_of_error hd]
    exact raise_endsWithErr .eIllegal s
  | ok i =>
    rw [performCommand_of_ok hd]
    cases hc : cursorBytes i with
    | some k =>
      simp only [hc]
      exact exec_cursor_endsWithErr hc s
    | none =>
      simp only [hc]
      exact exec_noCursor_endsWithErr hc s

end Sys2Proof.Machine
end

section
/-! SUPPORT. The reset input and power-up as arrivals (spec/70_reset_and_hazards.md R101, R102): both reset
the registers, and they differ in BUF alone. -/

namespace Sys2Proof.Machine

variable {s : State}

/-- `BUF_CAP` at its largest fits in LIM's 32 bits (00_scope.md R6; 10_state.md R29). -/
theorem resetRegisters_lim_toNat (hp : s.params.wf) : (resetRegisters s).lim.toNat = s.params.bufCap := by
  obtain ⟨-, hcap, -⟩ := hp
  rw [resetRegisters, BitVec.toNat_ofNat]
  exact Nat.mod_eq_of_lt (by omega)

/-- Reset and power-up reset the registers; reset keeps BUF and power-up empties it. -/
theorem takeArrival_of_reset_or_powerUp {x : Arrival} (hx : x = .reset ∨ x = .powerUp) (s : State) :
    ∃ m, takeArrival x s = .next ((resetRegisters s).setBuf m) ∧
      (x = .reset → m = s.buf) ∧ (x = .powerUp → m = []) := by
  rcases hx with rfl | rfl
  · exact ⟨s.buf, rfl, fun _ => rfl, nofun⟩
  · exact ⟨[], rfl, nofun, fun _ => rfl⟩

/-- Settles O2: the step takes the arrival off, and either arrival resets the registers and leaves a BUF `m`,
the old one or none. -/
theorem resetEventWritesEveryRegisterAndKeepsBuf : Obligations.ResetEventWritesEveryRegisterAndKeepsBuf := by
  intro s x rest hp hx hs
  obtain ⟨m, ht, hreset, hpowerUp⟩ := takeArrival_of_reset_or_powerUp hx (s.setArrivals rest)
  have hlim := resetRegisters_lim_toNat (s := s.setArrivals rest) hp
  have hbyte : x = .powerUp → ∀ a, ((resetRegisters (s.setArrivals rest)).setBuf m).byteAt a = none := by
    intro hx a
    rw [hpowerUp hx]
    exact Memory.lookup_nil a
  exact ⟨_, (step_of_arrivals_cons hs).trans ht, rfl, rfl, hlim, rfl, rfl, rfl, rfl, rfl, rfl, rfl, rfl,
    hreset, hbyte, rfl, rfl, rfl⟩

end Sys2Proof.Machine
end
